-- ==== Sys2Proof/Word.lean ====
section
/-! DEFINITION. The byte, the 16-byte wire buffer, and booleans carried as one bit. -/

namespace Sys2Proof

/-- One byte: the unit every buffer is addressed in (R15), and the width of the flags byte (R9). -/
abbrev Byte := BitVec 8

/-- The 16-byte wire header, `buf[i]` the byte at offset `i` (R9 `WIRE_LEN`, R15, R64). -/
abbrev Wire := Vector Byte 16

/-- The value operand of WITH: `VAL_WIDTH` = 64 bits (R9, R67). -/
abbrev Value := BitVec 64

end Sys2Proof
end

