-- ==== Sys2Proof/Config.lean ====
section
/-! DEFINITION. The implementation parameters of R9: `WIRE_LEN` as a number, the OPEN ones as constants without a value
(nothing can evaluate them or prove a value of them). The other fixed widths are in the types of Word and Syntax. -/

namespace Sys2Proof.Config

/-- `WIRE_LEN`: the encoded length, exactly 16 bytes (R9, R121). -/
def wireLen : Nat := 16

/-- What an implementation adds to the least `LEN_WIDTH`. OPEN (R9, D10; log 9). -/
opaque lenWidthExtra : Nat

/-- `LEN_WIDTH`: the width of the `buf_len` port. OPEN, at least 5 bits (R9, D10). -/
def lenWidth : Nat := 5 + lenWidthExtra

/-- `LATENCY`: the time from a request to its response. OPEN, and no rule depends on it (R9, R186; log 10). -/
opaque latency : Nat

/-- What a system adds to the least number of blocks. OPEN (R9, D16; log 11). -/
opaque nInstancesExtra : Nat

/-- `N_INSTANCES`: how many independent blocks a system has. OPEN, at least 1 (R9, D16). -/
def nInstances : Nat := 1 + nInstancesExtra

end Sys2Proof.Config
end

