-- ==== Sys2Proof/Syntax.lean ====
section
/-! DEFINITION. What travels to the block: the HeaderRecord, the fields WITH can name, the operations, the
instructions with their operands, and the request as its operand fields. -/

namespace Sys2Proof

/-- The HeaderRecord, its ten fields in the table order of R26. The record holds `version` in 8 bits,
of which 4 reach the wire (R26, D5, C4). -/
structure HeaderRecord where
  nextHdr   : Byte
  hdrExtLen : Byte
  cryptOff  : Byte
  s         : Bool
  d         : Bool
  version   : Byte
  vc        : Bool
  r         : Bool
  spi       : BitVec 32
  iv        : BitVec 64
  deriving DecidableEq, Repr

/-- The fields the WITH selector names, in the order of R62. -/
inductive HeaderField where
  | nextHdr | hdrExtLen | cryptOff | s | d | version | vc | r | spi | iv
  deriving DecidableEq, Repr

/-- The seven operations of R61, WITH carrying its field (R62). -/
inductive Op where
  | pack | unpack | encode | decode | default
  | withField (f : HeaderField)
  | build
  deriving DecidableEq, Repr

/-- The instructions: one constructor per row of the opcode table, with the operands that row names
(R25, R70, R71). -/
inductive Instr where
  /-- PACK (R101). -/
  | pack (sBit dBit : Bool) (version : Byte) (vcBit rBit : Bool)
  /-- UNPACK (R104). -/
  | unpack (byteIn : Byte)
  /-- ENCODE (R120). -/
  | encode (recIn : HeaderRecord)
  /-- DECODE (R123): the length, and the sixteen lanes the block carries of the buffer (R25). -/
  | decode (bufLen : Nat) (bufIn : Wire)
  /-- DEFAULT (R140). -/
  | default
  /-- WITH.next_hdr (R143). -/
  | withNextHdr (recIn : HeaderRecord) (valIn : Value)
  /-- WITH.hdr_ext_len (R143). -/
  | withHdrExtLen (recIn : HeaderRecord) (valIn : Value)
  /-- WITH.crypt_off (R143). -/
  | withCryptOff (recIn : HeaderRecord) (valIn : Value)
  /-- WITH.s (R143). -/
  | withS (recIn : HeaderRecord) (valIn : Value)
  /-- WITH.d (R143). -/
  | withD (recIn : HeaderRecord) (valIn : Value)
  /-- WITH.version (R143, R144). -/
  | withVersion (recIn : HeaderRecord) (valIn : Value)
  /-- WITH.vc (R143). -/
  | withVc (recIn : HeaderRecord) (valIn : Value)
  /-- WITH.r (R143, R145). -/
  | withR (recIn : HeaderRecord) (valIn : Value)
  /-- WITH.spi (R143). -/
  | withSpi (recIn : HeaderRecord) (valIn : Value)
  /-- WITH.iv (R143). -/
  | withIv (recIn : HeaderRecord) (valIn : Value)
  /-- BUILD (R147). -/
  | build (recIn : HeaderRecord)
  deriving DecidableEq, Repr

/-- A request: the command byte and every operand field of R25, as named fields (D13). -/
structure Request where
  cmd       : Byte
  recIn     : HeaderRecord
  pkS       : Bool
  pkD       : Bool
  pkVersion : Byte
  pkVc      : Bool
  pkR       : Bool
  byteIn    : Byte
  bufLen    : Nat
  bufIn     : Wire
  valIn     : Value
  deriving DecidableEq, Repr

end Sys2Proof
end

