-- ==== Sys2Proof/Machine/Operands.lean ====
section
/-! DEFINITION. Operand assembly (R66, R67) and buffers (R16, R25): bits of booleans, big-endian reads and
writes, the width of each WITH field and its check, and how a host's buffer reaches the sixteen lanes. -/

namespace Sys2Proof.Machine

/-- `bit(x)`: a boolean as one bit, true is 1 (R14). -/
def bit (x : Bool) : BitVec 1 := BitVec.ofBool x

/-- `bool(v[i])`: the boolean of bit `i` (R11, R14). -/
def boolAt {w : Nat} (v : BitVec w) (i : Nat) : Bool := v.getLsbD i

/-- `v[hi:lo]` as an unsigned number of `len` = hi - lo + 1 bits (R11). -/
def bits {w : Nat} (v : BitVec w) (lo len : Nat) : BitVec len := v.extractLsb' lo len

/-- `BufRead_BE(buf, off, n)` = `buf[off] ++ ... ++ buf[off+n-1]`, the lowest offset most significant (R16).
The codec reads offsets 0 to 15 only, so the value taken outside them is never used. -/
def bufReadBE (buf : Wire) (off : Nat) : (n : Nat) → BitVec (8 * n)
  | 0 => 0#0
  | n + 1 => bufReadBE buf off n ++ (buf[off + n]?).getD 0#8

/-- `BufWrite_BE(out, off, n, v)`: `out[off+k] <- v[8(n-k)-1 : 8(n-k)-8]` for k = 0 .. n-1, every other byte as
it was (R16). -/
def bufWriteBE {w : Nat} (out : Wire) (off n : Nat) (v : BitVec w) : Wire :=
  Vector.ofFn fun i =>
    if off ≤ i.val ∧ i.val < off + n then bits v (8 * (n - (i.val - off)) - 8) 8 else out[i]

/-- `W(fsel)`: the width of the field a WITH names (R62). -/
def fieldWidth : HeaderField → Nat
  | .nextHdr | .hdrExtLen | .cryptOff => 8
  | .s | .d => 1
  | .version => 8
  | .vc | .r => 1
  | .spi => 32
  | .iv => 64

/-- `val_in[63:W] = 0`: the value is no wider than the field (R67). -/
def valueFits (f : HeaderField) (v : Value) : Bool := v >>> fieldWidth f == 0#64

/-- The record with the named field replaced by the low bits of the value (R143). -/
def setField (f : HeaderField) (h : HeaderRecord) (v : Value) : HeaderRecord :=
  match f with
  | .nextHdr => { h with nextHdr := bits v 0 8 }
  | .hdrExtLen => { h with hdrExtLen := bits v 0 8 }
  | .cryptOff => { h with cryptOff := bits v 0 8 }
  | .s => { h with s := boolAt v 0 }
  | .d => { h with d := boolAt v 0 }
  | .version => { h with version := bits v 0 8 }
  | .vc => { h with vc := boolAt v 0 }
  | .r => { h with r := boolAt v 0 }
  | .spi => { h with spi := bits v 0 32 }
  | .iv => { h with iv := bits v 0 64 }

/-- The sixteen lanes that carry a host's buffer: lane `i` is `buf[i]` for `i < min(16, len buf)`, and the other
lanes carry no data, so they hold whatever the host leaves there (R25, D10). -/
def lanesOf (buf : List Byte) (noData : Wire) : Wire :=
  Vector.ofFn fun i => (buf[i.val]?).getD noData[i]

end Sys2Proof.Machine
end

