-- ==== Sys2Proof/WellFormed.lean ====
section
/-! DEFINITION. The checks: a well-formed record (R27), an instruction whose operands its encoding admits (R67),
and a request that a real port can present (R9). -/

namespace Sys2Proof

/-- `RecWF(h)`: the held version fits the 4-bit wire field (R27). -/
def HeaderRecord.wf (h : HeaderRecord) : Bool := decide (h.version < 16#8)

/-- The operands are ones the encoding admits: a WITH value has no bit at or above the width of its field (R67).
No other operand has an illegal value (R69, R163); in particular a record need not be well-formed. -/
def Instr.wf : Instr → Bool
  | .pack _ _ _ _ _ => true
  | .unpack _ => true
  | .encode _ => true
  | .decode _ _ => true
  | .default => true
  | .withNextHdr _ v => Machine.valueFits .nextHdr v
  | .withHdrExtLen _ v => Machine.valueFits .hdrExtLen v
  | .withCryptOff _ v => Machine.valueFits .cryptOff v
  | .withS _ v => Machine.valueFits .s v
  | .withD _ v => Machine.valueFits .d v
  | .withVersion _ v => Machine.valueFits .version v
  | .withVc _ v => Machine.valueFits .vc v
  | .withR _ v => Machine.valueFits .r v
  | .withSpi _ v => Machine.valueFits .spi v
  | .withIv _ v => Machine.valueFits .iv v
  | .build _ => true

/-- A real block's `buf_len` port has `LEN_WIDTH` bits; a longer length can be written down in the model and not
presented to that block (D10, I7; log 9). -/
def Request.Presentable (q : Request) : Prop := q.bufLen < 2 ^ Config.lenWidth

end Sys2Proof
end

