-- ==== Sys2Proof/Decode.lean ====
section
/-! DEFINITION. The command byte (R60 to R63): the decoder, total over all 256 bytes and rejecting by name; operand
assembly from a request (R25); the encoder; the opcode table as rows. -/

namespace Sys2Proof

/-- Why a command byte is reserved, one name per line of R63's `decode_cmd`. Each gives status ILLEGAL. -/
inductive Reject where
  /-- `cmd[7] = 1`. -/
  | reservedBit
  /-- `op = 7`. -/
  | reservedOp
  /-- `op` is not WITH and `fsel` is not 0. -/
  | selectorNotZero
  /-- WITH and `fsel` is 10 to 15. -/
  | reservedSelector
  deriving DecidableEq, Repr

/-- The operation an instruction performs. -/
def Instr.op : Instr → Op
  | .pack _ _ _ _ _ => .pack
  | .unpack _ => .unpack
  | .encode _ => .encode
  | .decode _ _ => .decode
  | .default => .default
  | .withNextHdr _ _ => .withField .nextHdr
  | .withHdrExtLen _ _ => .withField .hdrExtLen
  | .withCryptOff _ _ => .withField .cryptOff
  | .withS _ _ => .withField .s
  | .withD _ _ => .withField .d
  | .withVersion _ _ => .withField .version
  | .withVc _ _ => .withField .vc
  | .withR _ _ => .withField .r
  | .withSpi _ _ => .withField .spi
  | .withIv _ _ => .withField .iv
  | .build _ => .build

/-- The WITH instruction for a field (R142: one operation for the override and the setter). -/
def Instr.withField : HeaderField → HeaderRecord → Value → Instr
  | .nextHdr => .withNextHdr
  | .hdrExtLen => .withHdrExtLen
  | .cryptOff => .withCryptOff
  | .s => .withS
  | .d => .withD
  | .version => .withVersion
  | .vc => .withVc
  | .r => .withR
  | .spi => .withSpi
  | .iv => .withIv

/-- Every field of a record zero or false: what "operand words of zeros" means for a record. -/
def HeaderRecord.zero : HeaderRecord :=
  { nextHdr := 0, hdrExtLen := 0, cryptOff := 0, s := false, d := false, version := 0,
    vc := false, r := false, spi := 0, iv := 0 }

/-- Every operand field zero. -/
def Request.zero : Request :=
  { cmd := 0, recIn := .zero, pkS := false, pkD := false, pkVersion := 0, pkVc := false,
    pkR := false, byteIn := 0, bufLen := 0, bufIn := Vector.replicate 16 0, valIn := 0 }

/-- The `fsel` of a field (R62). -/
def HeaderField.sel : HeaderField → Nat
  | .nextHdr => 0
  | .hdrExtLen => 1
  | .cryptOff => 2
  | .s => 3
  | .d => 4
  | .version => 5
  | .vc => 6
  | .r => 7
  | .spi => 8
  | .iv => 9

/-- The field an `fsel` names; 10 to 15 are reserved (R62). -/
def HeaderField.ofSel : Nat → Option HeaderField
  | 0 => some .nextHdr
  | 1 => some .hdrExtLen
  | 2 => some .cryptOff
  | 3 => some .s
  | 4 => some .d
  | 5 => some .version
  | 6 => some .vc
  | 7 => some .r
  | 8 => some .spi
  | 9 => some .iv
  | _ => none

/-- The operation code (R61). -/
def Op.code : Op → Nat
  | .pack => 0
  | .unpack => 1
  | .encode => 2
  | .decode => 3
  | .default => 4
  | .withField _ => 5
  | .build => 6

/-- The field selector: that of the field for WITH, 0 for every other operation (R60). -/
def Op.sel : Op → Nat
  | .withField f => f.sel
  | _ => 0

/-- The command byte of an operation: `(fsel << 3) | op`, bit 7 clear (R60, R62). -/
def Op.cmdByte (o : Op) : Byte := (BitVec.ofNat 8 o.sel <<< 3) ||| BitVec.ofNat 8 o.code

/-- `decode_cmd` of R63. -/
def decodeCmd (cmd : Byte) : Except Reject Op :=
  let op := (cmd.extractLsb' 0 3).toNat
  let fsel := (cmd.extractLsb' 3 4).toNat
  if cmd.getLsbD 7 then .error .reservedBit
  else match op with
    | 0 => if fsel = 0 then .ok .pack else .error .selectorNotZero
    | 1 => if fsel = 0 then .ok .unpack else .error .selectorNotZero
    | 2 => if fsel = 0 then .ok .encode else .error .selectorNotZero
    | 3 => if fsel = 0 then .ok .decode else .error .selectorNotZero
    | 4 => if fsel = 0 then .ok .default else .error .selectorNotZero
    | 5 => match HeaderField.ofSel fsel with
      | some f => .ok (.withField f)
      | none => .error .reservedSelector
    | 6 => if fsel = 0 then .ok .build else .error .selectorNotZero
    | _ => .error .reservedOp

/-- The operation with the operand fields its row names, and no other, taken from the request (R25, R70). -/
def assemble (q : Request) : Op → Instr
  | .pack => .pack q.pkS q.pkD q.pkVersion q.pkVc q.pkR
  | .unpack => .unpack q.byteIn
  | .encode => .encode q.recIn
  | .decode => .decode q.bufLen q.bufIn
  | .default => .default
  | .withField f => .withField f q.recIn q.valIn
  | .build => .build q.recIn

/-- The instruction a request carries, or why its command byte is reserved. -/
def decode (q : Request) : Except Reject Instr :=
  match decodeCmd q.cmd with
  | .ok o => .ok (assemble q o)
  | .error e => .error e

/-- The request that presents an instruction: its command byte, its operands in the fields its row names, and every
other field as the host left it (R25: those are ignored). -/
def encode (i : Instr) (idle : Request) : Request :=
  let q := { idle with cmd := i.op.cmdByte }
  match i with
  | .pack s d v vc r => { q with pkS := s, pkD := d, pkVersion := v, pkVc := vc, pkR := r }
  | .unpack b => { q with byteIn := b }
  | .encode h => { q with recIn := h }
  | .decode n buf => { q with bufLen := n, bufIn := buf }
  | .default => q
  | .withNextHdr h v => { q with recIn := h, valIn := v }
  | .withHdrExtLen h v => { q with recIn := h, valIn := v }
  | .withCryptOff h v => { q with recIn := h, valIn := v }
  | .withS h v => { q with recIn := h, valIn := v }
  | .withD h v => { q with recIn := h, valIn := v }
  | .withVersion h v => { q with recIn := h, valIn := v }
  | .withVc h v => { q with recIn := h, valIn := v }
  | .withR h v => { q with recIn := h, valIn := v }
  | .withSpi h v => { q with recIn := h, valIn := v }
  | .withIv h v => { q with recIn := h, valIn := v }
  | .build h => { q with recIn := h }

/-- opcode_table.json: the legal command bytes, one row each (mask 0xFF). -/
def opcodeTable : List (Byte × Op) :=
  [ (0x00, .pack), (0x01, .unpack), (0x02, .encode), (0x03, .decode), (0x04, .default),
    (0x05, .withField .nextHdr), (0x0D, .withField .hdrExtLen), (0x15, .withField .cryptOff),
    (0x1D, .withField .s), (0x25, .withField .d), (0x2D, .withField .version),
    (0x35, .withField .vc), (0x3D, .withField .r), (0x45, .withField .spi),
    (0x4D, .withField .iv), (0x06, .build) ]

/-- The request whose command byte is the low byte of a word, every operand field zero (log 12). -/
def wordRequest (w : Nat) : Request := { Request.zero with cmd := BitVec.ofNat 8 w }

/-- The instruction the decoder reads from a word as opcode_table.json numbers its bits. The instruction is its
command byte (R70); the operands have no place in the word and are zero (log 12). -/
def decodeTableWord (nbits w : Nat) : Option Instr :=
  match decode (wordRequest (w % 2 ^ nbits)) with
  | .ok i => some i
  | .error _ => none

end Sys2Proof
end

