-- ==== Sys2Proof/Machine/State.lean ====
section
/-! DEFINITION. The response (R24, R29, R30), the machine's state (R33), its stop reasons, and reset (R180). -/

namespace Sys2Proof.Machine

/-- The status of a response (R24). Code 3 is never produced and has no constructor. -/
inductive Status where
  | ok | tooShort | illegal
  deriving DecidableEq, Repr

/-- The five sub-fields UNPACK returns, the version in 4 bits (R29, R104). -/
structure FlagFields where
  s       : Bool
  d       : Bool
  version : BitVec 4
  vc      : Bool
  r       : Bool
  deriving DecidableEq, Repr

/-- A response: one constructor per operation with the result fields that operation writes, plus TooShort and Illegal
(R29, R30). Result fields that carry no defined value do not exist (log 7). -/
inductive Response where
  /-- PACK: `byte_out`. -/
  | packed (byteOut : Byte)
  /-- UNPACK: `fl_s`, `fl_d`, `fl_version`, `fl_vc`, `fl_r`. -/
  | unpacked (fl : FlagFields)
  /-- ENCODE: `buf_out`. -/
  | encoded (bufOut : Wire)
  /-- DECODE: `rec_out`. -/
  | decoded (recOut : HeaderRecord)
  /-- DEFAULT: `rec_out`. -/
  | defaulted (recOut : HeaderRecord)
  /-- WITH: `rec_out`. -/
  | overridden (recOut : HeaderRecord)
  /-- BUILD: `rec_out`. -/
  | built (recOut : HeaderRecord)
  /-- Status TOO_SHORT, no result. -/
  | tooShort
  /-- Status ILLEGAL, no result. -/
  | illegal
  deriving DecidableEq, Repr

/-- Why the machine stops. No constructor: the spec gives the block no fault, no trap and no abort path (R44, R125,
R163, R166); its errors are responses (R160). Nobody raises one, which is exact and not a loss (log 14). -/
inductive Fault where
  deriving DecidableEq, Repr

/-- Why a step has no meaning. -/
inductive Refusal where
  /-- An instruction without a meaning in this model, raised by `exec`'s arm for it. Safe: nothing follows about it.
  No arm raises it: every instruction has its meaning. -/
  | notModelled (mnemonic : String)
  deriving DecidableEq, Repr

/-- The machine: the block's response port and its transaction in flight, and the host's requests, those that wait and
those it owes again. The block keeps nothing else (R21, R23, R31, R32, R33). -/
structure State where
  /-- Requests the host presents and the block has not accepted, in the order it will accept them (R20, R50; log 2). -/
  presented : List Request
  /-- The request accepted and sampled whose response has not been returned (R46, R180, R187). -/
  inFlight : Option Request
  /-- The response port; `none` while no response is valid (R24, R33, R180). -/
  response : Option Response
  /-- Requests abandoned at a reset that the host has not presented again: it must (R180), and until then the run is
  unfinished (R187; log 16). With several blocks each keeps its own (log 17). -/
  abandoned : List Request
  deriving DecidableEq, Repr

/-- Right after reset: no response is valid and nothing is in flight (R33, R180). No request waits and none is owed: DESIGN CHOICE (log 5). -/
def State.reset : State := { presented := [], inFlight := none, response := none, abandoned := [] }

end Sys2Proof.Machine
end

