-- ==== Sys2Proof/Machine/Flags.lean ====
section
/-! DEFINITION. The status codes, the block's only flag-like output (R24), and the flags byte: `pack8` and `unpack8`
(R65, R100). -/

namespace Sys2Proof.Machine

/-- The 2-bit status code (R24, D7). -/
def Status.code : Status → BitVec 2
  | .ok => 0
  | .tooShort => 1
  | .illegal => 2

/-- The status a response carries (R24). -/
def Response.status : Response → Status
  | .packed _ => .ok
  | .unpacked _ => .ok
  | .encoded _ => .ok
  | .decoded _ => .ok
  | .defaulted _ => .ok
  | .overridden _ => .ok
  | .built _ => .ok
  | .tooShort => .tooShort
  | .illegal => .illegal

/-- `pack8`: `bit(r) ++ bit(vc) ++ v[3:0] ++ bit(d) ++ bit(s)` (R100). -/
def pack8 (s d : Bool) (v : Byte) (vc r : Bool) : Byte :=
  bit r ++ bit vc ++ bits v 0 4 ++ bit d ++ bit s

/-- `unpack8`: S at bit 0, D at bit 1, the version at bits 5:2, VC at bit 6, R at bit 7 (R100). -/
def unpack8 (b : Byte) : FlagFields :=
  { s := boolAt b 0, d := boolAt b 1, version := bits b 2 4, vc := boolAt b 6, r := boolAt b 7 }

end Sys2Proof.Machine
end

