-- ==== Sys2Proof/Machine/Ops.lean ====
section
/-! DEFINITION. The shared operations: answering a request, raising an error status, accepting a request, reset, what
the host does, and the field override every WITH is made of. -/

namespace Sys2Proof.Machine

/-- The state after a response is returned: it stands on the port and nothing is in flight (R20, R24). -/
def State.answer (a : Response) (s : State) : State := { s with inFlight := none, response := some a }

/-- `respond(status, result)` ends the operation and returns the response (R16). -/
def respond (a : Response) (s : State) : Host.Outcome State Fault Refusal := .next (s.answer a)

/-- The two error causes (R160). -/
inductive Cause where
  | tooShort | illegal
  deriving DecidableEq, Repr

/-- An error's response: its status and no result (R16, R160). -/
def Cause.response : Cause → Response
  | .tooShort => .tooShort
  | .illegal => .illegal

/-- Taking an error. The block has no trap entry: an error saves nothing, changes no mode and transfers control
nowhere; it is the status of the response to the request that caused it (R16 `raise`, R166). There is no return from
one (R167): the block accepts the next request as usual (R161). -/
def raise (c : Cause) (s : State) : Host.Outcome State Fault Refusal := respond c.response s

/-- Acceptance: with nothing in flight the block samples the whole of the first waiting request (R46), and no response
is valid while it is in flight (log 3). With a request in flight it accepts no other (R172). -/
def State.accept (s : State) : State :=
  match s.inFlight with
  | some _ => s
  | none =>
    match s.presented with
    | [] => s
    | q :: rest => { s with presented := rest, inFlight := some q, response := none }

/-- Nothing to answer: no response is valid (log 3). -/
def State.idle (s : State) : State := { s with response := none }

/-- Reset asserted: no response is valid, and a request in flight is abandoned with no response, so that the host owes
it again (R180). The waiting requests are the host's and stay (log 6). -/
def State.assertReset (s : State) : State :=
  { s with inFlight := none, response := none, abandoned := s.abandoned ++ s.inFlight.toList }

/-- The host presents a request. Which place it takes among the waiting ones is the platform's arbitration (R172), so
any place may be asked for (log 2). Presenting an abandoned request again settles it (R180, R187; log 16). -/
def State.present (place : Nat) (q : Request) (s : State) : State :=
  { s with presented := s.presented.take place ++ q :: s.presented.drop place, abandoned := s.abandoned.erase q }

/-- WITH: ILLEGAL for a value wider than the field, else the record with that field replaced (R143). -/
def overrideField (f : HeaderField) (h : HeaderRecord) (v : Value) (s : State) : Host.Outcome State Fault Refusal :=
  if valueFits f v then respond (.overridden (setField f h v)) s else raise .illegal s

end Sys2Proof.Machine
end

