-- ==== Sys2Proof/Machine/Builder.lean ====
section
/-! DEFINITION. The default and override operations: DEFAULT, the ten WITHs, BUILD (42_builder.md). -/

namespace Sys2Proof.Machine

/-- The default record, a constant of the block (R140). -/
def defaultRecord : HeaderRecord :=
  { nextHdr := 0, hdrExtLen := 0, cryptOff := 0, s := false, d := false, version := 0,
    vc := false, r := true, spi := 0, iv := 0 }

/-- DEFAULT (R140). -/
def execDefault (s : State) : Host.Outcome State Fault Refusal := respond (.defaulted defaultRecord) s

/-- WITH.next_hdr (R143). -/
def execWithNextHdr (h : HeaderRecord) (v : Value) (s : State) : Host.Outcome State Fault Refusal :=
  overrideField .nextHdr h v s

/-- WITH.hdr_ext_len (R143). -/
def execWithHdrExtLen (h : HeaderRecord) (v : Value) (s : State) : Host.Outcome State Fault Refusal :=
  overrideField .hdrExtLen h v s

/-- WITH.crypt_off (R143). -/
def execWithCryptOff (h : HeaderRecord) (v : Value) (s : State) : Host.Outcome State Fault Refusal :=
  overrideField .cryptOff h v s

/-- WITH.s (R143). -/
def execWithS (h : HeaderRecord) (v : Value) (s : State) : Host.Outcome State Fault Refusal :=
  overrideField .s h v s

/-- WITH.d (R143). -/
def execWithD (h : HeaderRecord) (v : Value) (s : State) : Host.Outcome State Fault Refusal :=
  overrideField .d h v s

/-- WITH.version: all 8 bits are stored as given (R143, R144). -/
def execWithVersion (h : HeaderRecord) (v : Value) (s : State) : Host.Outcome State Fault Refusal :=
  overrideField .version h v s

/-- WITH.vc (R143). -/
def execWithVc (h : HeaderRecord) (v : Value) (s : State) : Host.Outcome State Fault Refusal :=
  overrideField .vc h v s

/-- WITH.r: the reserved bit may be cleared (R143, R145). -/
def execWithR (h : HeaderRecord) (v : Value) (s : State) : Host.Outcome State Fault Refusal :=
  overrideField .r h v s

/-- WITH.spi (R143). -/
def execWithSpi (h : HeaderRecord) (v : Value) (s : State) : Host.Outcome State Fault Refusal :=
  overrideField .spi h v s

/-- WITH.iv (R143): no value is wider than the field. -/
def execWithIv (h : HeaderRecord) (v : Value) (s : State) : Host.Outcome State Fault Refusal :=
  overrideField .iv h v s

/-- BUILD: the record as it is, without any check (R147, R148). -/
def execBuild (h : HeaderRecord) (s : State) : Host.Outcome State Fault Refusal := respond (.built h) s

end Sys2Proof.Machine
end

