-- ==== Sys2Proof/Machine/Cluster.lean ====
section
/-! DEFINITION. BitFieldCluster: PACK and UNPACK (40_bitfield.md). -/

namespace Sys2Proof.Machine

/-- PACK (R101). -/
def execPack (sBit dBit : Bool) (version : Byte) (vcBit rBit : Bool) (s : State) :
    Host.Outcome State Fault Refusal :=
  respond (.packed (pack8 sBit dBit version vcBit rBit)) s

/-- UNPACK (R104). -/
def execUnpack (byteIn : Byte) (s : State) : Host.Outcome State Fault Refusal :=
  respond (.unpacked (unpack8 byteIn)) s

end Sys2Proof.Machine
end

