-- ==== Sys2Proof/Machine/Codec.lean ====
section
/-! DEFINITION. Codec: ENCODE and DECODE (41_codec.md), over the wire header of R64. -/

namespace Sys2Proof.Machine

/-- The wire header of a record (R64, R120). Every one of the 16 bytes is written, so the buffer it starts from does
not matter (R121). -/
def encodeHeader (h : HeaderRecord) : Wire :=
  let out : Wire := Vector.replicate 16 0#8
  let out := bufWriteBE out 0 1 h.nextHdr
  let out := bufWriteBE out 1 1 h.hdrExtLen
  let out := bufWriteBE out 2 1 h.cryptOff
  let out := bufWriteBE out 3 1 (pack8 h.s h.d h.version h.vc h.r)
  let out := bufWriteBE out 4 4 h.spi
  bufWriteBE out 8 8 h.iv

/-- The record of a wire header (R64, R123); the version is widened with zeros (R66). -/
def decodeHeader (buf : Wire) : HeaderRecord :=
  let fl := unpack8 buf[3]
  { nextHdr := buf[0], hdrExtLen := buf[1], cryptOff := buf[2],
    s := fl.s, d := fl.d, version := fl.version.setWidth 8, vc := fl.vc, r := fl.r,
    spi := bufReadBE buf 4 4, iv := bufReadBE buf 8 8 }

/-- ENCODE (R120). -/
def execEncode (recIn : HeaderRecord) (s : State) : Host.Outcome State Fault Refusal :=
  respond (.encoded (encodeHeader recIn)) s

/-- DECODE: TOO_SHORT below 16 bytes, else the record of the sixteen lanes (R123, R124, R126). -/
def execDecode (bufLen : Nat) (bufIn : Wire) (s : State) : Host.Outcome State Fault Refusal :=
  if bufLen < Config.wireLen then raise .tooShort s
  else respond (.decoded (decodeHeader bufIn)) s

end Sys2Proof.Machine
end

