-- ==== Sys2Proof/Machine/Dispatch.lean ====
section
/-! DEFINITION. The meaning of each instruction: one arm per constructor of Instr. -/

namespace Sys2Proof.Machine

def exec (i : Instr) (s : State) : Host.Outcome State Fault Refusal :=
  match i with
  | .pack sBit dBit version vcBit rBit => Sys2Proof.Machine.execPack sBit dBit version vcBit rBit s
  | .unpack byteIn => Sys2Proof.Machine.execUnpack byteIn s
  | .encode recIn => Sys2Proof.Machine.execEncode recIn s
  | .decode bufLen bufIn => Sys2Proof.Machine.execDecode bufLen bufIn s
  | .default => Sys2Proof.Machine.execDefault s
  | .withNextHdr recIn valIn => Sys2Proof.Machine.execWithNextHdr recIn valIn s
  | .withHdrExtLen recIn valIn => Sys2Proof.Machine.execWithHdrExtLen recIn valIn s
  | .withCryptOff recIn valIn => Sys2Proof.Machine.execWithCryptOff recIn valIn s
  | .withS recIn valIn => Sys2Proof.Machine.execWithS recIn valIn s
  | .withD recIn valIn => Sys2Proof.Machine.execWithD recIn valIn s
  | .withVersion recIn valIn => Sys2Proof.Machine.execWithVersion recIn valIn s
  | .withVc recIn valIn => Sys2Proof.Machine.execWithVc recIn valIn s
  | .withR recIn valIn => Sys2Proof.Machine.execWithR recIn valIn s
  | .withSpi recIn valIn => Sys2Proof.Machine.execWithSpi recIn valIn s
  | .withIv recIn valIn => Sys2Proof.Machine.execWithIv recIn valIn s
  | .build recIn => Sys2Proof.Machine.execBuild recIn s

end Sys2Proof.Machine
end

