-- ==== Sys2Proof/Machine/Step.lean ====
section
/-! DEFINITION. One step: one transaction (R18). -/

namespace Sys2Proof.Machine

/-- One transaction: the block accepts the next request unless one is in flight, decodes its command byte, and returns
the response (R18, R20). A reserved command byte is ILLEGAL whatever its operands are (R63, R164). With nothing to
answer the block idles (log 3). -/
def step (s : State) : Host.Outcome State Fault Refusal :=
  match s.accept.inFlight with
  | none => .next s.accept.idle
  | some q =>
    match decode q with
    | .ok i => exec i s.accept
    | .error _ => raise .illegal s.accept

/-- The word as the request in flight, which the very next step decodes and answers (log 5, log 12). -/
def State.withFetchWord (s : State) (nbits w : Nat) : State :=
  { s with inFlight := some (wordRequest (w % 2 ^ nbits)) }

end Sys2Proof.Machine
end

