-- ==== Sys2Proof/Machine/Events.lean ====
section
/-! DEFINITION. What can happen at the block, as a list of events: the host presents a request, the block accepts one,
the block answers one, reset is asserted (R46, R175, R180, R187). -/

namespace Sys2Proof.Machine

/-- An event at the block. No event changes a request that waits: the host holds its operands until acceptance (R184;
log 15). -/
inductive Event where
  /-- The host presents a request, taking the given place among the waiting ones (R172, R175). -/
  | present (place : Nat) (q : Request)
  /-- The block accepts the next waiting request (R46). -/
  | accept
  /-- The block answers: one step. -/
  | serve
  /-- Reset (R180). -/
  | reset
  deriving DecidableEq, Repr

/-- The state after an event. -/
def onEvent (e : Event) (s : State) : Host.Outcome State Fault Refusal :=
  match e with
  | .present place q => .next (s.present place q)
  | .accept => .next s.accept
  | .serve => step s
  | .reset => .next s.assertReset

/-- The state after a list of events. -/
def onEvents : List Event → State → Host.Outcome State Fault Refusal
  | [], s => .next s
  | e :: es, s =>
    match onEvent e s with
    | .next t => onEvents es t
    | .fault f => .fault f
    | .refused r => .refused r

end Sys2Proof.Machine
end

