-- ==== Sys2Proof/Machine/System.lean ====
section
/-! DEFINITION. A system of `N_INSTANCES` blocks (R9, R172): independent states, no shared one. -/

namespace Sys2Proof.Machine

/-- The blocks of a system, each its own state. -/
abbrev System := List State

/-- Every block right after reset (R9, R180). -/
def systemReset : System := List.replicate Config.nInstances State.reset

/-- An event at block `k`; an index with no block changes nothing. A list of blocks is a system whatever its length, so
nothing here rests on `N_INSTANCES` (log 11).
DESIGN CHOICE: a request abandoned at a block is owed at that block, and presenting it at another does not settle it. The
spec says only that the host must present it again (R180, R187) and leaves the block to the platform (R172; log 17). -/
def onSystemEvent (k : Nat) (e : Event) (sys : System) : Host.Outcome System Fault Refusal :=
  match sys[k]? with
  | none => .next sys
  | some s =>
    match onEvent e s with
    | .next t => .next (sys.set k t)
    | .fault f => .fault f
    | .refused r => .refused r

end Sys2Proof.Machine
end

