-- ==== Sys2Proof/Safety.lean ====
section
/-! DEFINITION. What claims about runs speak of: which requests wait for an answer, when a run has ended (R187), the
responses a run returns (R50), what holds of the response port, and the host's build sequence (R149). -/

namespace Sys2Proof.Machine

/-- The requests at the block not yet answered, the one in flight first (R187). -/
def State.unanswered (s : State) : List Request := s.inFlight.toList ++ s.presented

/-- A run has ended when every presented request has been answered and none abandoned at a reset is still owed (R187). -/
def State.finished (s : State) : Bool := s.unanswered.isEmpty && s.abandoned.isEmpty

/-- The response a request gets when it is the first after reset. -/
def firstResponse (q : Request) : Option Response :=
  match step (State.reset.present 0 q) with
  | .next t => t.response
  | .fault _ => none
  | .refused _ => none

/-- The responses that `n` steps return, in the order they are returned. -/
def responses : Nat → State → List Response
  | 0, _ => []
  | n + 1, s =>
    match step s with
    | .next t => t.response.toList ++ responses n t
    | .fault _ => []
    | .refused _ => []

/-- The response port is sound: no response is valid while a request is in flight, a decoded record is well-formed
(R125), and DEFAULT's record is the constant of R140. -/
def State.PortSound (s : State) : Prop :=
  (s.inFlight ≠ none → s.response = none) ∧
  (∀ h, s.response = some (.decoded h) → h.version < 16#8) ∧
  (∀ h, s.response = some (.defaulted h) →
    h = { nextHdr := 0, hdrExtLen := 0, cryptOff := 0, s := false, d := false, version := 0,
          vc := false, r := true, spi := 0, iv := 0 })

/-- The record a response carries, which the host may use as the next `rec_in` (R185). -/
def Response.recOut : Response → Option HeaderRecord
  | .decoded h => some h
  | .defaulted h => some h
  | .overridden h => some h
  | .built h => some h
  | .packed _ => none
  | .unpacked _ => none
  | .encoded _ => none
  | .tooShort => none
  | .illegal => none

/-- The host makes one request and reads the record its response carries. -/
def ask (i : Instr) (s : State) : Option (HeaderRecord × State) :=
  match exec i s with
  | .next t => (t.response.bind Response.recOut).map fun h => (h, t)
  | .fault _ => none
  | .refused _ => none

/-- One WITH request for each override, in order, the record carried from one to the next (R149, R185). -/
def askOverrides : List (HeaderField × Value) → HeaderRecord → State → Option (HeaderRecord × State)
  | [], h, s => some (h, s)
  | (f, v) :: rest, h, s =>
    match ask (.withField f h v) s with
    | some (h', t) => askOverrides rest h' t
    | none => none

/-- The build sequence of R149: DEFAULT, one WITH for each override, BUILD. -/
def askBuild (overrides : List (HeaderField × Value)) (s : State) : Option (HeaderRecord × State) :=
  match ask .default s with
  | none => none
  | some (h, t) =>
    match askOverrides overrides h t with
    | none => none
    | some (h', u) => ask (.build h') u

/-- The value the last override of a field gives it, if any names it (R149). -/
def lastOverride (f : HeaderField) (overrides : List (HeaderField × Value)) : Option Value :=
  (overrides.reverse.find? fun o => decide (o.1 = f)).map Prod.snd

end Sys2Proof.Machine
end

