-- ==== Sys2Proof/Certificates/Slice0/Obligations.lean ====
section
/-! DEFINITION. The statements for the provers. Each names the rule of spec/ it formalises. A state after an answer is
written out as `{ s with inFlight := none, response := some … }`, so each result is also its frame: the requests that wait
and those the host owes again are unchanged, and nothing else exists (R21). -/

open Sys2Proof Sys2Proof.Machine

/-! ## The command byte -/

/-- R62: the ten WITH bytes, `(fsel << 3) | 5`, with the field each names and its width; 10 to 15 are reserved. -/
def Obligations.WithBytesNameTheirFields : Prop :=
  (∀ row ∈ ([(0, 0x05#8, .nextHdr, 8), (1, 0x0D#8, .hdrExtLen, 8), (2, 0x15#8, .cryptOff, 8),
      (3, 0x1D#8, .s, 1), (4, 0x25#8, .d, 1), (5, 0x2D#8, .version, 8), (6, 0x35#8, .vc, 1),
      (7, 0x3D#8, .r, 1), (8, 0x45#8, .spi, 32), (9, 0x4D#8, .iv, 64)] : List (Nat × Byte × HeaderField × Nat)),
    row.2.1 = (BitVec.ofNat 8 row.1 <<< 3) ||| 5#8 ∧
    decodeCmd row.2.1 = .ok (.withField row.2.2.1) ∧ fieldWidth row.2.2.1 = row.2.2.2) ∧
  (∀ c ∈ [0x55#8, 0x5D#8, 0x65#8, 0x6D#8, 0x75#8, 0x7D#8], decodeCmd c = .error .reservedSelector)

/-- R63: a byte is rejected exactly when one of the four checks of `decode_cmd` raises Illegal, otherwise its op and fsel are
those of the operation returned, and exactly 16 of the 256 bytes are legal. -/
def Obligations.CommandBytesDecodeAsDecodeCmd : Prop :=
  (∀ c : Byte,
    match decodeCmd c with
    | .error _ =>
      c.getLsbD 7 = true ∨ c.extractLsb' 0 3 = 7#3 ∨
      (c.extractLsb' 0 3 ≠ 5#3 ∧ c.extractLsb' 3 4 ≠ 0#4) ∨
      (c.extractLsb' 0 3 = 5#3 ∧ 9#4 < c.extractLsb' 3 4)
    | .ok o =>
      c.getLsbD 7 = false ∧ c.extractLsb' 0 3 ≠ 7#3 ∧
      (c.extractLsb' 0 3 = 5#3 ∨ c.extractLsb' 3 4 = 0#4) ∧
      (c.extractLsb' 0 3 = 5#3 → c.extractLsb' 3 4 ≤ 9#4) ∧
      o.code = (c.extractLsb' 0 3).toNat ∧ o.sel = (c.extractLsb' 3 4).toNat) ∧
  ((List.range 256).filter fun n => (decodeCmd (BitVec.ofNat 8 n)).toOption.isSome)
    = [0, 1, 2, 3, 4, 5, 6, 13, 21, 29, 37, 45, 53, 61, 69, 77]

/-- opcode_table.json against R63: the rows and the bit fields decode the same. -/
def Obligations.OpcodeTableAgreesWithDecoder : Prop :=
  ∀ (c : Byte) (o : Op), decodeCmd c = .ok o ↔ (c, o) ∈ opcodeTable

/-- One instruction of each family, decoded from a command byte written out bit by bit (R60, R61, R62). -/
def Obligations.CommandBytesInBitsDecode : Prop :=
  decodeCmd 0b00000000#8 = .ok .pack ∧ decodeCmd 0b00000001#8 = .ok .unpack ∧
  decodeCmd 0b00000010#8 = .ok .encode ∧ decodeCmd 0b00000011#8 = .ok .decode ∧
  decodeCmd 0b00000100#8 = .ok .default ∧ decodeCmd 0b00000110#8 = .ok .build ∧
  decodeCmd 0b00101101#8 = .ok (.withField .version) ∧ decodeCmd 0b01001101#8 = .ok (.withField .iv)

/-- Decode and encode agree on whole requests, both ways: an encoded instruction decodes to itself with every operand, on
any values of the other fields, and a request that decodes is the encoding of what it decodes to (R25, R63). -/
def Obligations.RequestsDecodeToWhatTheyEncode : Prop :=
  (∀ (i : Instr) (idle : Request), decode (encode i idle) = .ok i) ∧
  (∀ (q : Request) (i : Instr), decode q = .ok i → encode i q = q) ∧
  (∀ (q : Request) (e : Reject), decode q = .error e → ∀ (i : Instr) (idle : Request), encode i idle ≠ q)

/-! ## The step -/

/-- A step is the decoded instruction's meaning (R18, R20, R46): at the state as it is when its request is in flight, and
otherwise at the state in which the first waiting request has been accepted. That the port holds no valid response from
acceptance on is the model's choice (log 3). -/
def Obligations.StepRunsTheDecodedRequest : Prop :=
  ∀ (s : State) (q : Request) (i : Instr), decode q = .ok i →
    step { s with inFlight := some q } = exec i { s with inFlight := some q } ∧
    step { s with inFlight := none, presented := q :: s.presented } =
      exec i { s with inFlight := some q, response := none }

/-- With nothing in flight and nothing waiting, a step leaves everything as it is and the port without a valid response.
The model's choice (log 3): the spec does not say what the block does between responses (R187). -/
def Obligations.IdleStepReturnsNoResponse : Prop :=
  ∀ s : State, step { s with inFlight := none, presented := [] } =
    .next { s with inFlight := none, presented := [], response := none }

/-- R20: every request gets exactly one response, and the response depends on the request alone: whatever waits and
whatever was answered before, the same request gets the same response. -/
def Obligations.ResponseDependsOnItsRequestAlone : Prop :=
  ∀ q : Request, ∃ a : Response, ∀ s : State,
    step { s with inFlight := some q } = .next { s with inFlight := none, response := some a }

/-- R25: the operand fields an operation's row does not name have no effect on the response, and neither have the lanes at
or above `buf_len`. -/
def Obligations.UnnamedOperandFieldsHaveNoEffect : Prop :=
  (∀ (i : Instr) (idle idle' : Request), ∃ a : Response, ∀ s : State,
    step { s with inFlight := some (encode i idle) } = .next { s with inFlight := none, response := some a } ∧
    step { s with inFlight := some (encode i idle') } = .next { s with inFlight := none, response := some a }) ∧
  (∀ (q : Request) (lanes : Wire),
    (∀ (i : Nat) (h : i < 16), i < q.bufLen → lanes[i] = q.bufIn[i]) → ∃ a : Response, ∀ s : State,
    step { s with inFlight := some q } = .next { s with inFlight := none, response := some a } ∧
    step { s with inFlight := some { q with bufIn := lanes } } =
      .next { s with inFlight := none, response := some a })

/-- R46: the operands are sampled at acceptance. Whatever requests the host then presents instead, the response is the one
the block would have given at once. -/
def Obligations.OperandsAreSampledAtAcceptance : Prop :=
  ∀ (s : State) (q : Request) (later : List Request), ∃ a : Response,
    step { s with inFlight := none, presented := q :: s.presented } =
      .next { s with inFlight := none, response := some a } ∧
    step { State.accept { s with inFlight := none, presented := q :: s.presented } with presented := later } =
      .next { s with presented := later, inFlight := none, response := some a }

/-- R47: repeating a request gives the same response. -/
def Obligations.RepeatedRequestGetsTheSameResponse : Prop :=
  ∀ (s : State) (q : Request) (n : Nat), ∃ a : Response,
    responses n { s with inFlight := none, presented := List.replicate n q ++ s.presented } = List.replicate n a

/-- Responses come in the order of the waiting list, each the one its request gets as the first after reset, and any order
of presenting the same requests gives each request the same response. The last part is R50's. That the waiting requests are
served in the list's order is the model's choice (log 2: R187 leaves the order among waiting requesters open), and so is one
answer for each step (log 10). -/
def Obligations.RequestsAnsweredInOrderAndInAnyOrderAlike : Prop :=
  (∀ (s : State) (n : Nat), n ≤ s.unanswered.length →
    (responses n s).map some = (s.unanswered.take n).map firstResponse) ∧
  (∀ (s : State) (qs qs' : List Request), qs.Perm qs' →
    (qs.zip (responses qs.length { s with inFlight := none, presented := qs })).Perm
      (qs'.zip (responses qs'.length { s with inFlight := none, presented := qs' })))

/-- R187 with log 10: after one step for each request at the block all are answered, and the run has ended unless the host
owes a request abandoned at a reset. One answer for each step (log 10) and the list of what the host owes (log 16) are the
model's choices. -/
def Obligations.RunEndsAfterOneStepPerRequest : Prop :=
  ∀ s : State, ∃ t : State,
    Host.Core.run Sys2Proof.core s.unanswered.length s = .next t ∧ t.unanswered = [] ∧ t.abandoned = s.abandoned ∧
    (t.finished = true ↔ s.abandoned = [])

/-- No step, no instruction and no event stops the machine: no fault and no refusal. The spec has no trap and no abort path
(R163, R166). The model's choices in it: a reserved encoding is answered, where R161 also allows a refusal (log 4), a step
with nothing to answer takes a next state (log 3), and the type of faults has no constructor (log 14). -/
def Obligations.NothingStopsTheBlock : Prop :=
  (∀ s : State, ∃ t, step s = .next t) ∧
  (∀ (i : Instr) (s : State), ∃ t, exec i s = .next t) ∧
  (∀ (es : List Event) (s : State), ∃ t, onEvents es s = .next t)

/-- The frame of every instruction: it returns one response, and the host's requests are unchanged (R47, R161). -/
def Obligations.InstructionsChangeOnlyTheResponse : Prop :=
  ∀ (i : Instr) (s t : State), exec i s = .next t →
    ∃ a : Response, t = { presented := s.presented, inFlight := none, response := some a, abandoned := s.abandoned }

/-! ## PACK and UNPACK -/

/-- R100: `pack8` is the or of the shifted sub-fields, the version masked to 4 bits, and `unpack8` reads them back. -/
def Obligations.PackAndUnpackFunctions : Prop :=
  (∀ (s d : Bool) (v : Byte) (vc r : Bool),
    pack8 s d v vc r =
      ((BitVec.ofBool r).setWidth 8 <<< 7) ||| ((BitVec.ofBool vc).setWidth 8 <<< 6) |||
      ((v &&& 0xF#8) <<< 2) ||| ((BitVec.ofBool d).setWidth 8 <<< 1) ||| (BitVec.ofBool s).setWidth 8) ∧
  (∀ b : Byte,
    (unpack8 b).s = b.toNat.testBit 0 ∧ (unpack8 b).d = b.toNat.testBit 1 ∧
    (unpack8 b).version.toNat = b.toNat / 4 % 16 ∧
    (unpack8 b).vc = b.toNat.testBit 6 ∧ (unpack8 b).r = b.toNat.testBit 7)

/-- R101: PACK answers the flags byte, as an instruction and as the request with command byte 0x00. -/
def Obligations.PackAnswersTheFlagsByte : Prop :=
  (∀ (s : State) (sBit dBit : Bool) (v : Byte) (vcBit rBit : Bool),
    exec (.pack sBit dBit v vcBit rBit) s = .next { s with
      inFlight := none
      response := some (.packed
        (((BitVec.ofBool rBit).setWidth 8 <<< 7) ||| ((BitVec.ofBool vcBit).setWidth 8 <<< 6) |||
          ((v &&& 0xF#8) <<< 2) ||| ((BitVec.ofBool dBit).setWidth 8 <<< 1) ||| (BitVec.ofBool sBit).setWidth 8)) }) ∧
  (∀ (s : State) (q : Request),
    step { s with inFlight := some { q with cmd := 0x00#8 } } = .next { s with
      inFlight := none
      response := some (.packed
        (((BitVec.ofBool q.pkR).setWidth 8 <<< 7) ||| ((BitVec.ofBool q.pkVc).setWidth 8 <<< 6) |||
          ((q.pkVersion &&& 0xF#8) <<< 2) ||| ((BitVec.ofBool q.pkD).setWidth 8 <<< 1) |||
          (BitVec.ofBool q.pkS).setWidth 8)) }) ∧
  (∀ s : State, exec (.pack false false 0b11110001#8 false true) s =
    .next { s with inFlight := none, response := some (.packed 0x84#8) })

/-- R104: UNPACK answers the five sub-fields, as an instruction and as the request with command byte 0x01. -/
def Obligations.UnpackAnswersTheSubFields : Prop :=
  (∀ (s : State) (b : Byte),
    exec (.unpack b) s = .next { s with
      inFlight := none
      response := some (.unpacked
        { s := b.toNat.testBit 0, d := b.toNat.testBit 1, version := BitVec.ofNat 4 (b.toNat / 4),
          vc := b.toNat.testBit 6, r := b.toNat.testBit 7 }) }) ∧
  (∀ (s : State) (q : Request),
    step { s with inFlight := some { q with cmd := 0x01#8 } } = .next { s with
      inFlight := none
      response := some (.unpacked
        { s := q.byteIn.toNat.testBit 0, d := q.byteIn.toNat.testBit 1,
          version := BitVec.ofNat 4 (q.byteIn.toNat / 4),
          vc := q.byteIn.toNat.testBit 6, r := q.byteIn.toNat.testBit 7 }) }) ∧
  (∀ s : State, exec (.unpack 0x84#8) s = .next { s with
    inFlight := none
    response := some (.unpacked { s := false, d := false, version := 1#4, vc := false, r := true }) })

/-- R102: UNPACK of what PACK answers gives the sub-fields back, the version as its low 4 bits. -/
def Obligations.UnpackAfterPackGivesTheSubFields : Prop :=
  ∀ (s : State) (sBit dBit : Bool) (v : Byte) (vcBit rBit : Bool), ∃ b : Byte,
    exec (.pack sBit dBit v vcBit rBit) s = .next { s with inFlight := none, response := some (.packed b) } ∧
    ∀ t : State, exec (.unpack b) t = .next { t with
      inFlight := none
      response := some (.unpacked
        { s := sBit, d := dBit, version := BitVec.ofNat 4 v.toNat, vc := vcBit, r := rBit }) }

/-- R103: PACK of what UNPACK answers gives the byte back, and for versions below 16 nothing is lost the other way. -/
def Obligations.PackAfterUnpackGivesTheByte : Prop :=
  (∀ (s : State) (b : Byte), ∃ fl : FlagFields,
    exec (.unpack b) s = .next { s with inFlight := none, response := some (.unpacked fl) } ∧
    ∀ t : State, exec (.pack fl.s fl.d (fl.version.setWidth 8) fl.vc fl.r) t =
      .next { t with inFlight := none, response := some (.packed b) }) ∧
  (∀ (sBit dBit : Bool) (v : Byte) (vcBit rBit : Bool), v < 16#8 →
    (unpack8 (pack8 sBit dBit v vcBit rBit)).s = sBit ∧ (unpack8 (pack8 sBit dBit v vcBit rBit)).d = dBit ∧
    (unpack8 (pack8 sBit dBit v vcBit rBit)).version.setWidth 8 = v ∧
    (unpack8 (pack8 sBit dBit v vcBit rBit)).vc = vcBit ∧ (unpack8 (pack8 sBit dBit v vcBit rBit)).r = rBit)

/-- R105: bit isolation. Changing one sub-field changes only its bit positions, and bytes that differ only there unpack to
tuples that differ only in that sub-field. -/
def Obligations.SubFieldsAreIsolated : Prop :=
  (∀ (s d : Bool) (v : Byte) (vc r s' d' : Bool) (v' : Byte) (vc' r' : Bool),
    (pack8 s d v vc r ^^^ pack8 s' d v vc r) &&& 0xFE#8 = 0#8 ∧
    (pack8 s d v vc r ^^^ pack8 s d' v vc r) &&& 0xFD#8 = 0#8 ∧
    (pack8 s d v vc r ^^^ pack8 s d v' vc r) &&& 0xC3#8 = 0#8 ∧
    (pack8 s d v vc r ^^^ pack8 s d v vc' r) &&& 0xBF#8 = 0#8 ∧
    (pack8 s d v vc r ^^^ pack8 s d v vc r') &&& 0x7F#8 = 0#8) ∧
  (∀ b b' : Byte,
    ((b ^^^ b') &&& 0xFE#8 = 0#8 → { unpack8 b' with s := (unpack8 b).s } = unpack8 b) ∧
    ((b ^^^ b') &&& 0xFD#8 = 0#8 → { unpack8 b' with d := (unpack8 b).d } = unpack8 b) ∧
    ((b ^^^ b') &&& 0xC3#8 = 0#8 → { unpack8 b' with version := (unpack8 b).version } = unpack8 b) ∧
    ((b ^^^ b') &&& 0xBF#8 = 0#8 → { unpack8 b' with vc := (unpack8 b).vc } = unpack8 b) ∧
    ((b ^^^ b') &&& 0x7F#8 = 0#8 → { unpack8 b' with r := (unpack8 b).r } = unpack8 b))

/-! ## ENCODE and DECODE -/

/-- R120 with the layout of R64 and R65: ENCODE answers the sixteen bytes, as an instruction and as the request with
command byte 0x02; the default record gives the bytes of R120's example. -/
def Obligations.EncodeAnswersTheWireHeader : Prop :=
  let wire := fun h : HeaderRecord =>
    (#v[h.nextHdr, h.hdrExtLen, h.cryptOff,
      ((BitVec.ofBool h.r).setWidth 8 <<< 7) ||| ((BitVec.ofBool h.vc).setWidth 8 <<< 6) |||
        ((h.version &&& 0xF#8) <<< 2) ||| ((BitVec.ofBool h.d).setWidth 8 <<< 1) ||| (BitVec.ofBool h.s).setWidth 8,
      h.spi.extractLsb 31 24, h.spi.extractLsb 23 16, h.spi.extractLsb 15 8, h.spi.extractLsb 7 0,
      h.iv.extractLsb 63 56, h.iv.extractLsb 55 48, h.iv.extractLsb 47 40, h.iv.extractLsb 39 32,
      h.iv.extractLsb 31 24, h.iv.extractLsb 23 16, h.iv.extractLsb 15 8, h.iv.extractLsb 7 0] : Wire)
  (∀ (s : State) (h : HeaderRecord),
    exec (.encode h) s = .next { s with inFlight := none, response := some (.encoded (wire h)) }) ∧
  (∀ (s : State) (q : Request),
    step { s with inFlight := some { q with cmd := 0x02#8 } } =
      .next { s with inFlight := none, response := some (.encoded (wire q.recIn)) }) ∧
  wire defaultRecord = #v[0, 0, 0, 0x80, 0, 0, 0, 0, 0, 0, 0, 0, 0, 0, 0, 0]

/-- R42 with R40: bytes 4 to 7 read as one big-endian number give spi, bytes 8 to 15 give iv, and the single bytes are the
parts R42 names. -/
def Obligations.WireViewsGiveTheFields : Prop :=
  ∀ h : HeaderRecord,
    bufReadBE (encodeHeader h) 4 4 = h.spi ∧ bufReadBE (encodeHeader h) 8 8 = h.iv ∧
    (encodeHeader h)[4] = h.spi.extractLsb 31 24 ∧ (encodeHeader h)[15] = h.iv.extractLsb 7 0 ∧
    (encodeHeader h)[3] = pack8 h.s h.d h.version h.vc h.r

/-- R123: DECODE answers the record of the first sixteen bytes, or TOO_SHORT, as an instruction and as the request with
command byte 0x03, and R123's example. -/
def Obligations.DecodeAnswersTheRecord : Prop :=
  let record := fun b : Wire =>
    ({ nextHdr := b[0], hdrExtLen := b[1], cryptOff := b[2],
       s := b[3].toNat.testBit 0, d := b[3].toNat.testBit 1, version := BitVec.ofNat 8 (b[3].toNat / 4 % 16),
       vc := b[3].toNat.testBit 6, r := b[3].toNat.testBit 7,
       spi := b[4] ++ b[5] ++ b[6] ++ b[7],
       iv := b[8] ++ b[9] ++ b[10] ++ b[11] ++ b[12] ++ b[13] ++ b[14] ++ b[15] } : HeaderRecord)
  (∀ (s : State) (n : Nat) (b : Wire), 16 ≤ n →
    exec (.decode n b) s = .next { s with inFlight := none, response := some (.decoded (record b)) }) ∧
  (∀ (s : State) (n : Nat) (b : Wire), n < 16 →
    exec (.decode n b) s = .next { s with inFlight := none, response := some .tooShort }) ∧
  (∀ (s : State) (q : Request),
    step { s with inFlight := some { q with cmd := 0x03#8 } } =
      .next { s with
        inFlight := none
        response := some (if q.bufLen < 16 then .tooShort else .decoded (record q.bufIn)) }) ∧
  record #v[0x11, 0, 0, 0x84, 0x12, 0x34, 0x56, 0x78, 0x12, 0x34, 0x56, 0x78, 0x9A, 0xBC, 0xDE, 0xF0] =
    { nextHdr := 17, hdrExtLen := 0, cryptOff := 0, s := false, d := false, version := 1, vc := false, r := true,
      spi := 0x12345678, iv := 0x123456789ABCDEF0 }

/-- R124: a host's buffer of fewer than 16 bytes gives TOO_SHORT and no result, whatever the lanes without data hold. -/
def Obligations.ShortBuffersAnswerTooShort : Prop :=
  ∀ (s : State) (buf : List Byte) (noData : Wire), buf.length < 16 →
    exec (.decode buf.length (lanesOf buf noData)) s =
      .next { s with inFlight := none, response := some .tooShort }

/-- R126: for a host's buffer of 16 bytes or more the response is a record and does not depend on the bytes at offset 16
and above, nor on how many there are. -/
def Obligations.BytesBeyondSixteenAreIgnored : Prop :=
  ∀ (buf : List Byte) (more : List Byte) (noData noData' : Wire), buf.length = 16 → ∃ h : HeaderRecord, ∀ s : State,
    exec (.decode buf.length (lanesOf buf noData)) s =
      .next { s with inFlight := none, response := some (.decoded h) } ∧
    exec (.decode (buf ++ more).length (lanesOf (buf ++ more) noData')) s =
      .next { s with inFlight := none, response := some (.decoded h) }

/-- R125: every buffer of 16 bytes or more decodes to a record, and that record is well-formed. -/
def Obligations.DecodedRecordsAreWellFormed : Prop :=
  ∀ (s : State) (n : Nat) (b : Wire), 16 ≤ n → ∃ h : HeaderRecord,
    exec (.decode n b) s = .next { s with inFlight := none, response := some (.decoded h) } ∧ h.wf = true

/-- R128: decoding what ENCODE answers gives the record with its version masked to 4 bits, so a well-formed record comes
back as it was. -/
def Obligations.DecodeAfterEncodeGivesTheRecord : Prop :=
  ∀ (s : State) (h : HeaderRecord), ∃ b : Wire,
    exec (.encode h) s = .next { s with inFlight := none, response := some (.encoded b) } ∧
    (∀ t : State, exec (.decode 16 b) t = .next { t with
      inFlight := none
      response := some (.decoded { h with version := h.version &&& 0xF#8 }) }) ∧
    (h.wf = true → ∀ t : State,
      exec (.decode 16 b) t = .next { t with inFlight := none, response := some (.decoded h) })

/-- R129: encoding what DECODE answers gives the sixteen bytes back, and with R128 the two are inverse bijections between
the well-formed records and the 16-byte buffers. -/
def Obligations.EncodeAfterDecodeGivesTheBytes : Prop :=
  (∀ (s : State) (b : Wire), ∃ h : HeaderRecord,
    exec (.decode 16 b) s = .next { s with inFlight := none, response := some (.decoded h) } ∧
    ∀ t : State, exec (.encode h) t = .next { t with inFlight := none, response := some (.encoded b) }) ∧
  Set.BijOn encodeHeader { h : HeaderRecord | h.wf = true } Set.univ ∧
  (∀ h : HeaderRecord, h.wf = true → decodeHeader (encodeHeader h) = h)

/-- R122: the source's concrete vector, its unnamed fields at their defaults. -/
def Obligations.ConcreteVectorEncodes : Prop :=
  ∀ s : State,
    exec (.encode { defaultRecord with nextHdr := 17, version := 1, spi := 0x12345678, iv := 0x123456789ABCDEF0 }) s =
      .next { s with
        inFlight := none
        response := some (.encoded
          #v[0x11, 0, 0, 0x84, 0x12, 0x34, 0x56, 0x78, 0x12, 0x34, 0x56, 0x78, 0x9A, 0xBC, 0xDE, 0xF0]) }

/-! ## DEFAULT, WITH, BUILD -/

/-- R140: DEFAULT answers the default record, as an instruction and as the request with command byte 0x04. -/
def Obligations.DefaultAnswersTheDefaultRecord : Prop :=
  let record : HeaderRecord :=
    { nextHdr := 0, hdrExtLen := 0, cryptOff := 0, s := false, d := false, version := 0, vc := false, r := true,
      spi := 0, iv := 0 }
  (∀ s : State, exec .default s = .next { s with inFlight := none, response := some (.defaulted record) }) ∧
  (∀ (s : State) (q : Request),
    step { s with inFlight := some { q with cmd := 0x04#8 } } =
      .next { s with inFlight := none, response := some (.defaulted record) }) ∧
  (∀ s : State, exec (.encode record) s = .next { s with
    inFlight := none
    response := some (.encoded #v[0, 0, 0, 0x80, 0, 0, 0, 0, 0, 0, 0, 0, 0, 0, 0, 0]) })

/-- R141: a build with no overrides encodes to the default vector. -/
def Obligations.DefaultBuildEncodesToTheDefaultVector : Prop :=
  ∀ s : State, ∃ (h : HeaderRecord) (t : State), askBuild [] s = some (h, t) ∧
    exec (.encode h) t = .next { t with
      inFlight := none
      response := some (.encoded #v[0, 0, 0, 0x80, 0, 0, 0, 0, 0, 0, 0, 0, 0, 0, 0, 0]) } ∧
    pack8 false false 0 false true = 0x80#8

/-- R143 with R67: each WITH answers the record with its one field replaced when the value fits the field, and ILLEGAL
otherwise; its request is the command byte `(fsel << 3) | 5`. -/
def Obligations.WithReplacesOneFieldOrAnswersIllegal : Prop :=
  let illegal := fun s : State => (.next { s with inFlight := none, response := some .illegal } :
    Host.Outcome State Fault Refusal)
  let gives := fun (s : State) (h : HeaderRecord) => (.next { s with inFlight := none, response := some (.overridden h) } :
    Host.Outcome State Fault Refusal)
  (∀ (s : State) (h : HeaderRecord) (v : Value),
    exec (.withNextHdr h v) s =
      (if v.toNat < 256 then gives s { h with nextHdr := BitVec.ofNat 8 v.toNat } else illegal s) ∧
    exec (.withHdrExtLen h v) s =
      (if v.toNat < 256 then gives s { h with hdrExtLen := BitVec.ofNat 8 v.toNat } else illegal s) ∧
    exec (.withCryptOff h v) s =
      (if v.toNat < 256 then gives s { h with cryptOff := BitVec.ofNat 8 v.toNat } else illegal s) ∧
    exec (.withS h v) s = (if v.toNat < 2 then gives s { h with s := decide (v.toNat = 1) } else illegal s) ∧
    exec (.withD h v) s = (if v.toNat < 2 then gives s { h with d := decide (v.toNat = 1) } else illegal s) ∧
    exec (.withVersion h v) s =
      (if v.toNat < 256 then gives s { h with version := BitVec.ofNat 8 v.toNat } else illegal s) ∧
    exec (.withVc h v) s = (if v.toNat < 2 then gives s { h with vc := decide (v.toNat = 1) } else illegal s) ∧
    exec (.withR h v) s = (if v.toNat < 2 then gives s { h with r := decide (v.toNat = 1) } else illegal s) ∧
    exec (.withSpi h v) s =
      (if v.toNat < 2 ^ 32 then gives s { h with spi := BitVec.ofNat 32 v.toNat } else illegal s) ∧
    exec (.withIv h v) s = gives s { h with iv := v }) ∧
  (∀ (s : State) (q : Request) (f : HeaderField),
    step { s with inFlight := some { q with cmd := (BitVec.ofNat 8 f.sel <<< 3) ||| 5#8 } } =
      exec (.withField f q.recIn q.valIn) s)

/-- R143's corner cases: two overrides of different fields commute, of two overrides of one field the later wins, and
writing the value a field already holds gives the record back. -/
def Obligations.OverridesCommuteAndTheLaterWins : Prop :=
  (∀ (s : State) (h : HeaderRecord) (f g : HeaderField) (v w : Value), valueFits f v = true → valueFits g w = true →
    (f ≠ g → ∃ h' : HeaderRecord, ∃ t t' : State,
      askOverrides [(f, v), (g, w)] h s = some (h', t) ∧ askOverrides [(g, w), (f, v)] h s = some (h', t')) ∧
    (f = g → ∃ h' : HeaderRecord, ∃ t t' : State,
      askOverrides [(f, v), (g, w)] h s = some (h', t) ∧ askOverrides [(g, w)] h s = some (h', t'))) ∧
  (∀ (s : State) (h : HeaderRecord), ∀ o ∈ ([(.nextHdr, h.nextHdr.setWidth 64), (.hdrExtLen, h.hdrExtLen.setWidth 64),
      (.cryptOff, h.cryptOff.setWidth 64), (.s, (BitVec.ofBool h.s).setWidth 64), (.d, (BitVec.ofBool h.d).setWidth 64),
      (.version, h.version.setWidth 64), (.vc, (BitVec.ofBool h.vc).setWidth 64), (.r, (BitVec.ofBool h.r).setWidth 64),
      (.spi, h.spi.setWidth 64), (.iv, h.iv)] : List (HeaderField × Value)),
    exec (.withField o.1 h o.2) s = .next { s with inFlight := none, response := some (.overridden h) })

/-- R144: a version given to WITH is stored with all its 8 bits, ENCODE sends its low 4 bits, and from 16 on the record does
not survive DECODE of ENCODE. -/
def Obligations.VersionIsStoredAsGivenAndTruncatedAtEncode : Prop :=
  ∀ (s : State) (h : HeaderRecord) (v : Value), v.toNat < 256 → ∃ (h' : HeaderRecord) (b : Wire),
    exec (.withVersion h v) s = .next { s with inFlight := none, response := some (.overridden h') } ∧
    h'.version.toNat = v.toNat ∧
    (∀ t : State, exec (.encode h') t = .next { t with inFlight := none, response := some (.encoded b) }) ∧
    b[3].toNat / 4 % 16 = v.toNat % 16 ∧
    (16 ≤ v.toNat → ∀ t u : State, exec (.decode 16 b) t = .next u → u.response ≠ some (.decoded h'))

/-- R145 with C2: WITH may clear R, no error follows, and ENCODE sends the record's R as it is. -/
def Obligations.ReservedBitIsSentAsItIs : Prop :=
  ∀ (s : State) (h : HeaderRecord),
    exec (.withR h 0) s = .next { s with inFlight := none, response := some (.overridden { h with r := false }) } ∧
    ∃ b : Wire, exec (.encode h) s = .next { s with inFlight := none, response := some (.encoded b) } ∧
      b[3].toNat.testBit 7 = h.r

/-- R147: BUILD answers the record it was given, without any check, as an instruction and as the request with command
byte 0x06. -/
def Obligations.BuildAnswersItsRecord : Prop :=
  (∀ (s : State) (h : HeaderRecord),
    exec (.build h) s = .next { s with inFlight := none, response := some (.built h) }) ∧
  (∀ (s : State) (q : Request),
    step { s with inFlight := some { q with cmd := 0x06#8 } } =
      .next { s with inFlight := none, response := some (.built q.recIn) })

/-- R149: a complete build succeeds for every list of overrides whose values fit, and each field of its record holds the
value of the last override of that field, or the default. -/
def Obligations.BuildSequenceGivesDefaultsWithLastOverrides : Prop :=
  ∀ (overrides : List (HeaderField × Value)) (s : State), (∀ o ∈ overrides, valueFits o.1 o.2 = true) →
    ∃ (h : HeaderRecord) (t : State), askBuild overrides s = some (h, t) ∧
      h.nextHdr.toNat = ((lastOverride .nextHdr overrides).map BitVec.toNat).getD 0 ∧
      h.hdrExtLen.toNat = ((lastOverride .hdrExtLen overrides).map BitVec.toNat).getD 0 ∧
      h.cryptOff.toNat = ((lastOverride .cryptOff overrides).map BitVec.toNat).getD 0 ∧
      h.s.toNat = ((lastOverride .s overrides).map BitVec.toNat).getD 0 ∧
      h.d.toNat = ((lastOverride .d overrides).map BitVec.toNat).getD 0 ∧
      h.version.toNat = ((lastOverride .version overrides).map BitVec.toNat).getD 0 ∧
      h.vc.toNat = ((lastOverride .vc overrides).map BitVec.toNat).getD 0 ∧
      h.r.toNat = ((lastOverride .r overrides).map BitVec.toNat).getD 1 ∧
      h.spi.toNat = ((lastOverride .spi overrides).map BitVec.toNat).getD 0 ∧
      h.iv.toNat = ((lastOverride .iv overrides).map BitVec.toNat).getD 0

/-! ## Errors -/

/-- R68: the illegal encodings answer ILLEGAL with no result and no other effect, and no other request does. -/
def Obligations.IllegalEncodingsAnswerIllegal : Prop :=
  ∀ q : Request,
    let illegal : Prop :=
      q.cmd.getLsbD 7 = true ∨ q.cmd.extractLsb' 0 3 = 7#3 ∨
      (q.cmd.extractLsb' 0 3 ≠ 5#3 ∧ q.cmd.extractLsb' 3 4 ≠ 0#4) ∨
      (q.cmd.extractLsb' 0 3 = 5#3 ∧ 9#4 < q.cmd.extractLsb' 3 4) ∨
      (∃ f : HeaderField, decodeCmd q.cmd = .ok (.withField f) ∧ 2 ^ fieldWidth f ≤ q.valIn.toNat)
    (illegal → ∀ s : State,
      step { s with inFlight := some q } = .next { s with inFlight := none, response := some .illegal }) ∧
    (¬ illegal → ∃ a : Response, a.status ≠ .illegal ∧ ∀ s : State,
      step { s with inFlight := some q } = .next { s with inFlight := none, response := some a })

/-- R160 with the codes of R24: TOO_SHORT (1) exactly for DECODE with `buf_len < 16`, ILLEGAL (2) exactly for a reserved
command byte or a too-wide WITH value, OK (0) otherwise, and 3 never. -/
def Obligations.EveryStatusHasItsCause : Prop :=
  ∀ q : Request,
    let wide : Prop := ∃ f : HeaderField, decodeCmd q.cmd = .ok (.withField f) ∧ 2 ^ fieldWidth f ≤ q.valIn.toNat
    let reserved : Prop := ∃ e : Reject, decodeCmd q.cmd = .error e
    ∃ a : Response,
      (∀ s : State, step { s with inFlight := some q } = .next { s with inFlight := none, response := some a }) ∧
      (a.status.code = 1#2 ↔ q.cmd = 0x03#8 ∧ q.bufLen < 16) ∧
      (a.status.code = 2#2 ↔ reserved ∨ wide) ∧
      (a.status.code = 0#2 ↔ ¬ (q.cmd = 0x03#8 ∧ q.bufLen < 16) ∧ ¬ (reserved ∨ wide)) ∧
      a.status.code ≠ 3#2

/-- R164: one status in order. A reserved command byte is ILLEGAL whatever the operands, then a too-wide WITH value is
ILLEGAL whatever `buf_len`, then a short DECODE is TOO_SHORT whatever the value operand. -/
def Obligations.ErrorsAreReportedInOrder : Prop :=
  (∀ (s : State) (q : Request) (e : Reject), decodeCmd q.cmd = .error e →
    ∀ (n : Nat) (v : Value), step { s with inFlight := some { q with bufLen := n, valIn := v } } =
      .next { s with inFlight := none, response := some .illegal }) ∧
  (∀ (s : State) (q : Request) (f : HeaderField), decodeCmd q.cmd = .ok (.withField f) →
    ∀ (n : Nat) (v : Value), 2 ^ fieldWidth f ≤ v.toNat →
      step { s with inFlight := some { q with bufLen := n, valIn := v } } =
        .next { s with inFlight := none, response := some .illegal }) ∧
  (∀ (s : State) (q : Request), decodeCmd q.cmd = .ok .decode →
    ∀ (n : Nat) (v : Value), n < 16 → step { s with inFlight := some { q with bufLen := n, valIn := v } } =
      .next { s with inFlight := none, response := some .tooShort })

/-- R162 and R163: PACK, UNPACK, ENCODE, DEFAULT and BUILD answer OK on all operands, DECODE on every 16 bytes, and WITH
fails only with ILLEGAL. -/
def Obligations.NoFieldValueIsAnError : Prop :=
  ∀ (i : Instr) (s : State), ∃ a : Response,
    exec i s = .next { s with inFlight := none, response := some a } ∧
    (i.op ∈ [Op.pack, Op.unpack, Op.encode, Op.default, Op.build] → a.status = .ok) ∧
    ((∃ n b, i = .decode n b ∧ 16 ≤ n) → a.status = .ok) ∧
    ((∃ f, i.op = .withField f) → a.status = .ok ∨ a.status = .illegal) ∧
    ((∃ f, i.op = .withField f) → i.wf = true → a.status = .ok)

/-! ## Reset and invariants -/

/-- The state right after reset: no response is valid and nothing is in flight (R33, R180). That no request waits or is owed
is the model's choice (log 5). -/
def Obligations.ResetStateHoldsNothing : Prop :=
  State.reset.response = none ∧ State.reset.inFlight = none ∧ State.reset.unanswered = [] ∧
  State.reset.finished = true

/-- R180: at reset no response is valid; the request in flight is abandoned: it is no longer at the block, no later step
answers it, and the host owes it; presented again it gets the response it would have got and is owed no more. With nothing
waiting the next step returns no response. The model's choices in it: the waiting requests stay (log 6), debts are listed and
settled by an equal request (log 16), a request presented at place 0 is served first (log 2), and a step with nothing to
answer takes a next state (log 3). -/
def Obligations.ResetAbandonsTheRequestInFlight : Prop :=
  ∀ (s : State) (q : Request), ∃ a : Response,
    step { s with inFlight := some q } = .next { s with inFlight := none, response := some a } ∧
    (State.assertReset { s with inFlight := some q }).response = none ∧
    (State.assertReset { s with inFlight := some q }).unanswered = s.presented ∧
    (State.assertReset { s with inFlight := some q }).abandoned = s.abandoned ++ [q] ∧
    (State.assertReset { s with inFlight := some q }).finished = false ∧
    (∀ n, responses n (State.assertReset { s with inFlight := some q }) =
      responses n { s with inFlight := none }) ∧
    (∃ t : State, step (State.assertReset { s with inFlight := some q, presented := [] }) = .next t ∧ t.response = none) ∧
    (∃ t : State, step ((State.assertReset { s with inFlight := some q }).present 0 q) = .next t ∧
      t.response = some a ∧ t.presented = s.presented ∧ t.abandoned.Perm s.abandoned)

/-- A request accepted after reset gets the response it gets at any other time, as R181 says. The model's choices in it: the
requests waiting at the reset survive it (log 6), and a request presented at place 0 is served first (log 2). -/
def Obligations.ResetChangesNoResponse : Prop :=
  ∀ q : Request, ∃ a : Response, ∀ s t : State,
    step { s with inFlight := some q } = .next { s with inFlight := none, response := some a } ∧
    ∃ u : State, step (t.assertReset.present 0 q) = .next u ∧ u.response = some a ∧ u.presented = t.presented

/-- The invariant of the response port holds at reset (R33, R125, R140). -/
def Obligations.ResponsePortSoundAtReset : Prop := State.reset.PortSound

/-- Every step keeps the response port sound (R125, R140): no response is valid while a request is in flight, a decoded
record is well-formed, and DEFAULT's record is the constant. The first part rests on the model's choice (log 3). -/
def Obligations.StepKeepsResponsePortSound : Prop :=
  ∀ s t : State, s.PortSound → step s = .next t → t.PortSound

/-- Every list of events keeps the response port sound: presenting, accepting, answering and reset in any order.
The first part of the invariant rests on the model's choice (log 3). -/
def Obligations.EventsKeepResponsePortSound : Prop :=
  ∀ (es : List Event) (s t : State), s.PortSound → onEvents es s = .next t → t.PortSound

/-! ## Several blocks -/

/-- R172: blocks share no state. An event at one block leaves every other block as it was, and events at two different
blocks commute. The model's choices in it: events happen one at a time (log 11), and what the host owes after a reset is
kept for each block, so presenting a request at one block settles no debt at another (log 17). -/
def Obligations.BlocksDoNotInteract : Prop :=
  ∀ (sys : System) (j k : Nat) (d e : Event), j ≠ k →
    ∃ sj sk sjk : System,
      onSystemEvent j d sys = .next sj ∧ onSystemEvent k e sys = .next sk ∧
      sj[k]? = sys[k]? ∧ sk[j]? = sys[j]? ∧
      onSystemEvent k e sj = .next sjk ∧ onSystemEvent j d sk = .next sjk
end

