-- ==== Sys2Proof/Laws/Bytes.lean ====
section
/-! SUPPORT. Big-endian reads and writes, byte by byte. -/

namespace Sys2Proof.Machine

/-- A byte inside the bytes written is the part of the value R16 names; any other is as it was. -/
theorem bufWriteBE_get {w : Nat} (out : Wire) (off n : Nat) (v : BitVec w) (i : Nat) (h : i < 16) :
    (bufWriteBE out off n v)[i] =
      if off ≤ i ∧ i < off + n then v.extractLsb' (8 * (n - (i - off)) - 8) 8 else out[i] := by
  simp [bufWriteBE, bits]

/-- Reading no byte. -/
@[simp] theorem bufReadBE_zero (b : Wire) (off : Nat) : bufReadBE b off 0 = 0#0 := rfl

/-- The last byte read is the least significant. -/
theorem bufReadBE_succ (b : Wire) (off n : Nat) (h : off + n < 16) :
    bufReadBE b off (n + 1) = bufReadBE b off n ++ b[off + n] := by
  simp [bufReadBE, h]

/-- Reading one byte. -/
theorem bufReadBE_one (b : Wire) (off : Nat) (h : off < 16) : bufReadBE b off 1 = (b[off] : BitVec 8) := by
  have e : ∀ x : BitVec 8, (0#0 ++ x : BitVec 8) = x := by decide
  exact (bufReadBE_succ b off 0 h).trans (e _)

/-- `BufRead_BE(buf, 4, 4)` (R123). -/
theorem bufReadBE_spi (b : Wire) : bufReadBE b 4 4 = b[4] ++ b[5] ++ b[6] ++ b[7] :=
  congrArg (fun x : BitVec 8 => x ++ b[5] ++ b[6] ++ b[7]) (bufReadBE_one b 4 (by decide))

/-- `BufRead_BE(buf, 8, 8)` (R123). -/
theorem bufReadBE_iv (b : Wire) :
    bufReadBE b 8 8 = b[8] ++ b[9] ++ b[10] ++ b[11] ++ b[12] ++ b[13] ++ b[14] ++ b[15] :=
  congrArg (fun x : BitVec 8 => x ++ b[9] ++ b[10] ++ b[11] ++ b[12] ++ b[13] ++ b[14] ++ b[15])
    (bufReadBE_one b 8 (by decide))

/-- The sixteen bytes of a wire header (R64). -/
theorem encodeHeader_eq (h : HeaderRecord) : encodeHeader h =
    #v[h.nextHdr, h.hdrExtLen, h.cryptOff, pack8 h.s h.d h.version h.vc h.r,
      h.spi.extractLsb' 24 8, h.spi.extractLsb' 16 8, h.spi.extractLsb' 8 8, h.spi.extractLsb' 0 8,
      h.iv.extractLsb' 56 8, h.iv.extractLsb' 48 8, h.iv.extractLsb' 40 8, h.iv.extractLsb' 32 8,
      h.iv.extractLsb' 24 8, h.iv.extractLsb' 16 8, h.iv.extractLsb' 8 8, h.iv.extractLsb' 0 8] := by
  ext i hi
  interval_cases i <;> simp [encodeHeader, bufWriteBE_get]

/-- A part and the byte below it are the wider part. -/
theorem extract_append_byte {w : Nat} (x : BitVec w) (s n : Nat) :
    x.extractLsb' (s + 8) n ++ x.extractLsb' s 8 = x.extractLsb' s (n + 8) := by
  apply BitVec.eq_of_getLsbD_eq
  intro i hi
  simp only [BitVec.getLsbD_append, BitVec.getLsbD_extractLsb']
  by_cases h : i < 8
  · simp [h]; omega
  · simp [h, hi, show i - 8 < n by omega, show s + 8 + (i - 8) = s + i by omega]

/-- The low byte of a concatenation. -/
theorem append_low_byte {n : Nat} (a : BitVec n) (b : BitVec 8) : (a ++ b).extractLsb' 0 8 = b := by
  apply BitVec.eq_of_getLsbD_eq
  intro i hi
  simp [BitVec.getLsbD_append, hi]

/-- A byte above the low byte of a concatenation. -/
theorem append_high_byte {n : Nat} (a : BitVec n) (b : BitVec 8) (k : Nat) :
    (a ++ b).extractLsb' (k + 8) 8 = a.extractLsb' k 8 := by
  apply BitVec.eq_of_getLsbD_eq
  intro i hi
  simp [BitVec.getLsbD_append, hi, show ¬ (k + 8 + i < 8) by omega, show k + 8 + i - 8 = k + i by omega]

/-- The four bytes of spi, most significant first, are spi (R40). -/
theorem spi_bytes (x : BitVec 32) :
    (x.extractLsb' 24 8 ++ x.extractLsb' 16 8 ++ x.extractLsb' 8 8 ++ x.extractLsb' 0 8 : BitVec 32) = x := by
  rw [extract_append_byte x 16 8, extract_append_byte x 8 16, extract_append_byte x 0 24]
  simp

/-- The eight bytes of iv, most significant first, are iv (R40). -/
theorem iv_bytes (x : BitVec 64) :
    (x.extractLsb' 56 8 ++ x.extractLsb' 48 8 ++ x.extractLsb' 40 8 ++ x.extractLsb' 32 8 ++
      x.extractLsb' 24 8 ++ x.extractLsb' 16 8 ++ x.extractLsb' 8 8 ++ x.extractLsb' 0 8 : BitVec 64) = x := by
  rw [extract_append_byte x 48 8, extract_append_byte x 40 16, extract_append_byte x 32 24,
    extract_append_byte x 24 32, extract_append_byte x 16 40, extract_append_byte x 8 48, extract_append_byte x 0 56]
  simp

/-- A lane carries the host's byte where the buffer has one (R25). -/
theorem lanesOf_get (buf : List Byte) (noData : Wire) (i : Nat) (h : i < 16) :
    (lanesOf buf noData)[i] = if hb : i < buf.length then buf[i] else noData[i] := by
  by_cases hb : i < buf.length <;> simp [lanesOf, hb]

end Sys2Proof.Machine
end

