-- ==== Sys2Proof/Laws/Decode.lean ====
section
/-! SUPPORT. The command byte of an operation, and what assembly and encoding do to it. -/

namespace Sys2Proof

/-- The command byte of an operation decodes to it (R60 to R63). -/
theorem decodeCmd_cmdByte (o : Op) : decodeCmd o.cmdByte = .ok o := by
  cases o with
  | withField f => cases f <;> decide
  | _ => decide

/-- An encoded instruction presents the command byte of its operation. -/
theorem encode_cmd (i : Instr) (idle : Request) : (encode i idle).cmd = i.op.cmdByte := by
  cases i <;> rfl

/-- Assembly from a request whose command byte decodes. -/
theorem decode_of_ok {q : Request} {o : Op} (h : decodeCmd q.cmd = .ok o) : decode q = .ok (assemble q o) := by
  simp [decode, h]

/-- A reserved command byte. -/
theorem decode_of_error {q : Request} {e : Reject} (h : decodeCmd q.cmd = .error e) : decode q = .error e := by
  simp [decode, h]

end Sys2Proof
end

