-- ==== Sys2Proof/Laws/State.lean ====
section
/-! SUPPORT. What each update of the state does to each field. -/

namespace Sys2Proof.Machine

@[simp] theorem State.answer_presented (a : Response) (s : State) : (s.answer a).presented = s.presented := rfl
@[simp] theorem State.answer_inFlight (a : Response) (s : State) : (s.answer a).inFlight = none := rfl
@[simp] theorem State.answer_response (a : Response) (s : State) : (s.answer a).response = some a := rfl
@[simp] theorem State.answer_abandoned (a : Response) (s : State) : (s.answer a).abandoned = s.abandoned := rfl

/-- An answer does not depend on what was in flight or on the port: it replaces both. -/
theorem State.answer_congr (a : Response) {s t : State} (h : s.presented = t.presented)
    (ha : s.abandoned = t.abandoned) :
    s.answer a = t.answer a := by
  cases s; cases t; simp_all [State.answer]

@[simp] theorem State.idle_presented (s : State) : s.idle.presented = s.presented := rfl
@[simp] theorem State.idle_inFlight (s : State) : s.idle.inFlight = s.inFlight := rfl
@[simp] theorem State.idle_response (s : State) : s.idle.response = none := rfl
@[simp] theorem State.idle_abandoned (s : State) : s.idle.abandoned = s.abandoned := rfl

@[simp] theorem State.assertReset_presented (s : State) : s.assertReset.presented = s.presented := rfl
@[simp] theorem State.assertReset_inFlight (s : State) : s.assertReset.inFlight = none := rfl
@[simp] theorem State.assertReset_response (s : State) : s.assertReset.response = none := rfl
@[simp] theorem State.assertReset_abandoned (s : State) :
    s.assertReset.abandoned = s.abandoned ++ s.inFlight.toList := rfl

@[simp] theorem State.present_presented (n : Nat) (q : Request) (s : State) :
    (s.present n q).presented = s.presented.take n ++ q :: s.presented.drop n := rfl
@[simp] theorem State.present_inFlight (n : Nat) (q : Request) (s : State) :
    (s.present n q).inFlight = s.inFlight := rfl
@[simp] theorem State.present_response (n : Nat) (q : Request) (s : State) :
    (s.present n q).response = s.response := rfl
@[simp] theorem State.present_abandoned (n : Nat) (q : Request) (s : State) :
    (s.present n q).abandoned = s.abandoned.erase q := rfl

/-- With a request in flight nothing is accepted. -/
@[simp] theorem State.accept_of_inFlight {s : State} {q : Request} (h : s.inFlight = some q) : s.accept = s := by
  simp [State.accept, h]

/-- With nothing in flight the first waiting request is accepted and the port is cleared. -/
theorem State.accept_of_presented {s : State} {q : Request} {rest : List Request}
    (h : s.inFlight = none) (hp : s.presented = q :: rest) :
    s.accept = { s with presented := rest, inFlight := some q, response := none } := by
  simp [State.accept, h, hp]

/-- With nothing in flight and nothing waiting nothing is accepted. -/
theorem State.accept_of_nothing {s : State} (h : s.inFlight = none) (hp : s.presented = []) : s.accept = s := by
  simp [State.accept, h, hp]

end Sys2Proof.Machine
end

