-- ==== Sys2Proof/Laws/Ops.lean ====
section
/-! SUPPORT. What the shared operations, the meanings, a step and an event can do, each said once. -/

namespace Sys2Proof.Machine

/-- Responding answers. -/
theorem respond_eq (a : Response) (s : State) : respond a s = .next (s.answer a) := rfl

/-- Raising an error answers with its status and no result. -/
theorem raise_eq (c : Cause) (s : State) : raise c s = .next (s.answer c.response) := rfl

/-- An override of a value that fits answers the record with the field replaced. -/
theorem overrideField_of_fits {f : HeaderField} {v : Value} (h : HeaderRecord) (s : State) (hv : valueFits f v = true) :
    overrideField f h v s = .next (s.answer (.overridden (setField f h v))) := by
  simp [overrideField, hv, respond]

/-- An override of a value that does not fit answers ILLEGAL. -/
theorem overrideField_of_wide {f : HeaderField} {v : Value} (h : HeaderRecord) (s : State) (hv : valueFits f v = false) :
    overrideField f h v s = .next (s.answer .illegal) := by
  simp [overrideField, hv, raise, Cause.response, respond]

/-- The WITH instruction of a field is that field's override. -/
theorem exec_withField (f : HeaderField) (h : HeaderRecord) (v : Value) (s : State) :
    exec (.withField f h v) s = overrideField f h v s := by
  cases f <;> rfl

/-- Every instruction answers, with a response that does not depend on the state. -/
theorem exec_answers (i : Instr) : ∃ a : Response, ∀ s : State, exec i s = .next (s.answer a) := by
  have hover : ∀ f h v, ∃ a : Response, ∀ s : State, overrideField f h v s = .next (s.answer a) := fun f h v => by
    cases hv : valueFits f v
    · exact ⟨_, fun s => overrideField_of_wide h s hv⟩
    · exact ⟨_, fun s => overrideField_of_fits h s hv⟩
  cases i with
  | decode n b =>
    by_cases hn : n < Config.wireLen
    · exact ⟨.tooShort, fun s => by simp [exec, execDecode, hn, raise, Cause.response, respond]⟩
    · exact ⟨.decoded (decodeHeader b), fun s => by simp [exec, execDecode, hn, respond]⟩
  | withNextHdr h v | withHdrExtLen h v | withCryptOff h v | withS h v | withD h v | withVersion h v
  | withVc h v | withR h v | withSpi h v | withIv h v => exact hover _ h v
  | _ => exact ⟨_, fun _ => rfl⟩

/-- A request in flight is answered, with a response that depends on the request alone. -/
theorem step_answers (q : Request) :
    ∃ a : Response, ∀ s : State, s.accept.inFlight = some q → step s = .next (s.accept.answer a) := by
  cases hd : decode q with
  | ok i =>
    obtain ⟨a, ha⟩ := exec_answers i
    exact ⟨a, fun s hs => by simp [step, hs, hd, ha]⟩
  | error e => exact ⟨.illegal, fun s hs => by simp [step, hs, hd, raise, Cause.response, respond]⟩

/-- With nothing to answer a step idles. -/
theorem step_idle {s : State} (h : s.accept.inFlight = none) : step s = .next s.accept.idle := by
  simp [step, h]

/-- A step answers or idles. -/
theorem step_cases {s t : State} (h : step s = .next t) :
    (s.accept.inFlight = none ∧ t = s.accept.idle) ∨
    (∃ q a, s.accept.inFlight = some q ∧ t = s.accept.answer a) := by
  cases hq : s.accept.inFlight with
  | none => exact .inl ⟨rfl, by simpa [step_idle hq] using h.symm⟩
  | some q =>
    obtain ⟨a, ha⟩ := step_answers q
    exact .inr ⟨q, a, rfl, by simpa [ha s hq] using h.symm⟩

/-- A step at a request that decodes is the instruction's meaning, on any state that waits alike: an answer replaces
what is in flight and on the port. -/
theorem step_eq_exec {q : Request} {i : Instr} (h : decode q = .ok i) (s : State) :
    step { s with inFlight := some q } = exec i s := by
  obtain ⟨a, ha⟩ := exec_answers i
  simp [step, State.accept, h, ha, State.answer]

/-- A step at a legal command byte, on any operands. -/
theorem step_of_cmd {c : Byte} {o : Op} (h : decodeCmd c = .ok o) (q : Request) (s : State) :
    step { s with inFlight := some { q with cmd := c } } = exec (assemble q o) s := by
  have := step_eq_exec (q := { q with cmd := c }) (decode_of_ok h) s
  exact this.trans (by cases o <;> rfl)

/-- The one response of a request: in flight, waiting first, and as the first request after reset. -/
theorem request_answered (q : Request) : ∃ a : Response,
    (∀ s : State, step { s with inFlight := some q } = .next { s with inFlight := none, response := some a }) ∧
    (∀ s : State, step { s with inFlight := none, presented := q :: s.presented } =
      .next { s with inFlight := none, response := some a }) ∧
    firstResponse q = some a := by
  obtain ⟨a, ha⟩ := step_answers q
  refine ⟨a, fun s => ?_, fun s => ?_, ?_⟩
  · simpa [State.answer, State.accept] using ha { s with inFlight := some q } (by simp [State.accept])
  · simpa [State.answer, State.accept] using
      ha { s with inFlight := none, presented := q :: s.presented } (by simp [State.accept])
  · simp [firstResponse, ha (State.reset.present 0 q) (by simp [State.accept, State.present, State.reset])]

/-- An event presents, accepts, steps or resets. -/
theorem onEvent_cases {e : Event} {s t : State} (h : onEvent e s = .next t) :
    (∃ n q, e = .present n q ∧ t = s.present n q) ∨ (e = .accept ∧ t = s.accept) ∨
    (e = .serve ∧ step s = .next t) ∨ (e = .reset ∧ t = s.assertReset) := by
  cases e <;> simp_all [onEvent]

/-- Every port can present the lengths that matter: `LEN_WIDTH` is at least 5 (R9). -/
theorem presentable_of_le {q : Request} (h : q.bufLen ≤ 31) : q.Presentable :=
  Nat.lt_of_le_of_lt h (Nat.lt_of_lt_of_le (by decide : 31 < 2 ^ 5)
    (Nat.pow_le_pow_right (by decide) (by simp [Config.lenWidth])))

end Sys2Proof.Machine
end

