-- ==== Sys2Proof/Laws/PerInstr.lean ====
section
/-! SUPPORT. Facts about each instruction as syntax, one lemma per constructor. -/

namespace Sys2Proof.Laws.CommandByte

/-- The instruction's command byte decodes to its operation, and its request presents that byte (R60, R63). -/
def Statement (i : Instr) : Prop :=
  decodeCmd i.op.cmdByte = .ok i.op ∧ ∀ idle : Request, (encode i idle).cmd = i.op.cmdByte

theorem pack (s d : Bool) (v : Byte) (vc r : Bool) : Statement (.pack s d v vc r) := ⟨decodeCmd_cmdByte _, fun _ => rfl⟩
theorem unpack (b : Byte) : Statement (.unpack b) := ⟨decodeCmd_cmdByte _, fun _ => rfl⟩
theorem encode (h : HeaderRecord) : Statement (.encode h) := ⟨decodeCmd_cmdByte _, fun _ => rfl⟩
theorem decode (n : Nat) (b : Wire) : Statement (.decode n b) := ⟨decodeCmd_cmdByte _, fun _ => rfl⟩
theorem default : Statement .default := ⟨decodeCmd_cmdByte _, fun _ => rfl⟩
theorem withNextHdr (h : HeaderRecord) (v : Value) : Statement (.withNextHdr h v) := ⟨decodeCmd_cmdByte _, fun _ => rfl⟩
theorem withHdrExtLen (h : HeaderRecord) (v : Value) : Statement (.withHdrExtLen h v) := ⟨decodeCmd_cmdByte _, fun _ => rfl⟩
theorem withCryptOff (h : HeaderRecord) (v : Value) : Statement (.withCryptOff h v) := ⟨decodeCmd_cmdByte _, fun _ => rfl⟩
theorem withS (h : HeaderRecord) (v : Value) : Statement (.withS h v) := ⟨decodeCmd_cmdByte _, fun _ => rfl⟩
theorem withD (h : HeaderRecord) (v : Value) : Statement (.withD h v) := ⟨decodeCmd_cmdByte _, fun _ => rfl⟩
theorem withVersion (h : HeaderRecord) (v : Value) : Statement (.withVersion h v) := ⟨decodeCmd_cmdByte _, fun _ => rfl⟩
theorem withVc (h : HeaderRecord) (v : Value) : Statement (.withVc h v) := ⟨decodeCmd_cmdByte _, fun _ => rfl⟩
theorem withR (h : HeaderRecord) (v : Value) : Statement (.withR h v) := ⟨decodeCmd_cmdByte _, fun _ => rfl⟩
theorem withSpi (h : HeaderRecord) (v : Value) : Statement (.withSpi h v) := ⟨decodeCmd_cmdByte _, fun _ => rfl⟩
theorem withIv (h : HeaderRecord) (v : Value) : Statement (.withIv h v) := ⟨decodeCmd_cmdByte _, fun _ => rfl⟩
theorem build (h : HeaderRecord) : Statement (.build h) := ⟨decodeCmd_cmdByte _, fun _ => rfl⟩

end Sys2Proof.Laws.CommandByte
end

