-- ==== Sys2Proof/Machine/Assembler.lean ====
section
/-! DEFINITION. The request syntax of R71 (right of the `=`), with `<rec>` a host-side name and numbers in decimal. -/

namespace Sys2Proof.Machine

/-- `0` or `1` (R71). -/
def showBit (b : Bool) : String := if b then "1" else "0"

/-- `<field>`: one of the names of R62. -/
def fieldName : HeaderField → String
  | .nextHdr => "next_hdr"
  | .hdrExtLen => "hdr_ext_len"
  | .cryptOff => "crypt_off"
  | .s => "s"
  | .d => "d"
  | .version => "version"
  | .vc => "vc"
  | .r => "r"
  | .spi => "spi"
  | .iv => "iv"

/-- The mnemonics of R61. -/
def mnemonic : Op → String
  | .pack => "PACK"
  | .unpack => "UNPACK"
  | .encode => "ENCODE"
  | .decode => "DECODE"
  | .default => "DEFAULT"
  | .withField _ => "WITH"
  | .build => "BUILD"

/-- `WITH <rec>, <field>, <value>`. -/
def showWith (f : HeaderField) (recName : String) (v : Value) : String :=
  "WITH " ++ recName ++ ", " ++ fieldName f ++ ", " ++ toString v.toNat

/-- A request in the syntax of R71; the buffer's bytes are those the block carries. -/
def showRequest (recName : String) : Instr → String
  | .pack s d v vc r =>
    "PACK " ++ showBit s ++ ", " ++ showBit d ++ ", " ++ toString v.toNat ++ ", " ++ showBit vc ++ ", " ++ showBit r
  | .unpack b => "UNPACK " ++ toString b.toNat
  | .encode _ => "ENCODE " ++ recName
  | .decode n buf =>
    "DECODE " ++ toString n ++ ", [" ++ ", ".intercalate ((buf.toList.take n).map fun b => toString b.toNat) ++ "]"
  | .default => "DEFAULT"
  | .withNextHdr _ v => showWith .nextHdr recName v
  | .withHdrExtLen _ v => showWith .hdrExtLen recName v
  | .withCryptOff _ v => showWith .cryptOff recName v
  | .withS _ v => showWith .s recName v
  | .withD _ v => showWith .d recName v
  | .withVersion _ v => showWith .version recName v
  | .withVc _ v => showWith .vc recName v
  | .withR _ v => showWith .r recName v
  | .withSpi _ v => showWith .spi recName v
  | .withIv _ v => showWith .iv recName v
  | .build _ => "BUILD " ++ recName

end Sys2Proof.Machine
end

