-- ==== Sys2Proof/Tests/Slice0.lean ====
section
/-! SUPPORT. Tests: words written out from the spec's encodings, the vectors of 95_test_vectors.md, the ill-formed terms the
checks refuse, and a witness for every statement that has a hypothesis. -/

namespace Sys2Proof.Tests

open Sys2Proof.Machine

/-- The response on the port after a step or an instruction. -/
def portAfter (o : Host.Outcome State Fault Refusal) : Option Response :=
  match o with
  | .next t => t.response
  | .fault _ => none
  | .refused _ => none

/-- A request with the given command byte, every other field zero. -/
def req (cmd : Byte) : Request := { Request.zero with cmd := cmd }

/-! ## Decoding: the byte of each constructor, from R60 to R62 (`0 fsel op`) -/

theorem test_decode_pack : decodeTableWord 8 0b00000000 = some (.pack false false 0 false false) := by decide
theorem test_decode_unpack : decodeTableWord 8 0b00000001 = some (.unpack 0) := by decide
theorem test_decode_encode : decodeTableWord 8 0b00000010 = some (.encode .zero) := by decide
theorem test_decode_decode : decodeTableWord 8 0b00000011 = some (.decode 0 (Vector.replicate 16 0)) := by decide
theorem test_decode_default : decodeTableWord 8 0b00000100 = some .default := by decide
theorem test_decode_build : decodeTableWord 8 0b00000110 = some (.build .zero) := by decide
theorem test_decode_with_next_hdr : decodeTableWord 8 0b00000101 = some (.withNextHdr .zero 0) := by decide
theorem test_decode_with_hdr_ext_len : decodeTableWord 8 0b00001101 = some (.withHdrExtLen .zero 0) := by decide
theorem test_decode_with_crypt_off : decodeTableWord 8 0b00010101 = some (.withCryptOff .zero 0) := by decide
theorem test_decode_with_s : decodeTableWord 8 0b00011101 = some (.withS .zero 0) := by decide
theorem test_decode_with_d : decodeTableWord 8 0b00100101 = some (.withD .zero 0) := by decide
theorem test_decode_with_version : decodeTableWord 8 0b00101101 = some (.withVersion .zero 0) := by decide
theorem test_decode_with_vc : decodeTableWord 8 0b00110101 = some (.withVc .zero 0) := by decide
theorem test_decode_with_r : decodeTableWord 8 0b00111101 = some (.withR .zero 0) := by decide
theorem test_decode_with_spi : decodeTableWord 8 0b01000101 = some (.withSpi .zero 0) := by decide
theorem test_decode_with_iv : decodeTableWord 8 0b01001101 = some (.withIv .zero 0) := by decide

/-- Bits above the command byte are no part of the instruction (R70; log 12). -/
theorem test_decode_ignores_bits_above_the_command : decodeTableWord 16 0x0105 = some (.withNextHdr .zero 0) := by decide

/-- V-CMD: the reserved bytes, each rejected by name. -/
theorem test_decode_reserved :
    decodeCmd 0x07 = .error .reservedOp ∧ decodeCmd 0x0F = .error .reservedOp ∧
    decodeCmd 0x08 = .error .selectorNotZero ∧ decodeCmd 0x0A = .error .selectorNotZero ∧
    decodeCmd 0x4E = .error .selectorNotZero ∧ decodeCmd 0x55 = .error .reservedSelector ∧
    decodeCmd 0x7D = .error .reservedSelector ∧ decodeCmd 0x80 = .error .reservedBit ∧
    decodeCmd 0x85 = .error .reservedBit ∧ decodeCmd 0xFF = .error .reservedBit := by decide

/-- The operands come from the fields the row names (R25). -/
theorem test_decode_operands :
    decode { req 0x00 with pkS := true, pkVersion := 0x0F, pkVc := true, pkR := true } =
      .ok (.pack true false 0x0F true true) := by decide

/-! ## Well-formedness: an ill-formed term for each check -/

theorem smoke_record_version_16 : ({ HeaderRecord.zero with version := 16 } : HeaderRecord).wf = false := by decide
theorem smoke_record_version_15 : ({ HeaderRecord.zero with version := 15 } : HeaderRecord).wf = true := by decide
theorem smoke_with_bytes_too_wide :
    (Instr.withNextHdr .zero 0x100).wf = false ∧ (Instr.withHdrExtLen .zero 0x100).wf = false ∧
    (Instr.withCryptOff .zero 0x100).wf = false ∧ (Instr.withVersion .zero 0x100).wf = false := by decide
theorem smoke_with_flags_too_wide :
    (Instr.withS .zero 2).wf = false ∧ (Instr.withD .zero 2).wf = false ∧
    (Instr.withVc .zero 2).wf = false ∧ (Instr.withR .zero 2).wf = false := by decide
theorem smoke_with_spi_too_wide : (Instr.withSpi .zero 0x100000000).wf = false := by decide
theorem smoke_with_iv_always_fits : (Instr.withIv .zero 0xFFFFFFFFFFFFFFFF).wf = true := by decide
theorem smoke_length_no_port_presents : ¬ ({ req 0x03 with bufLen := 2 ^ Config.lenWidth } : Request).Presentable := by
  simp [Request.Presentable]
theorem smoke_length_every_port_presents : ({ req 0x03 with bufLen := 16 } : Request).Presentable :=
  presentable_of_le (by decide)

/-! ## The vectors of 95_test_vectors.md -/

/-- V-PACK: truncation with other bits set. -/
theorem test_pack_truncates : portAfter (exec (.pack true true 0x13 true false) .reset) = some (.packed 0x4F) := by decide
/-- V-PACK: the last row. -/
theorem test_pack_c8 : portAfter (exec (.pack false false 0x02 true true) .reset) = some (.packed 0xC8) := by decide
/-- V-UNPACK: 0x55. -/
theorem test_unpack_55 : portAfter (exec (.unpack 0x55) .reset) =
    some (.unpacked { s := true, d := false, version := 5, vc := true, r := false }) := by decide
/-- V-UNPACK: 0xC3. -/
theorem test_unpack_c3 : portAfter (exec (.unpack 0xC3) .reset) =
    some (.unpacked { s := true, d := true, version := 0, vc := true, r := true }) := by decide
/-- V-ENCODE: the fourth row (version 0x13 sends 3, R clear is sent clear). -/
theorem test_encode_all_fields : portAfter (exec (.encode
      { defaultRecord with nextHdr := 0x32, hdrExtLen := 2, cryptOff := 1, version := 0x13, r := false,
                           spi := 0x01020304, iv := 0x0102030405060708 }) .reset) =
    some (.encoded #v[0x32, 2, 1, 0x0C, 1, 2, 3, 4, 1, 2, 3, 4, 5, 6, 7, 8]) := by decide
/-- W3: the record with spi all ones. -/
theorem test_encode_spi_ones : portAfter (exec (.encode
      { defaultRecord with s := true, version := 3, vc := true, r := false, spi := 0xFFFFFFFF }) .reset) =
    some (.encoded #v[0, 0, 0, 0x4D, 0xFF, 0xFF, 0xFF, 0xFF, 0, 0, 0, 0, 0, 0, 0, 0]) := by decide
/-- V-DECODE: length 20, the first sixteen bytes. -/
theorem test_decode_twenty_bytes :
    portAfter (exec (.decode 20 #v[0x32, 2, 1, 0x4D, 1, 2, 3, 4, 1, 2, 3, 4, 5, 6, 7, 8]) .reset) =
      some (.decoded { defaultRecord with nextHdr := 0x32, hdrExtLen := 2, cryptOff := 1, s := true, version := 3,
                                          vc := true, r := false, spi := 0x01020304, iv := 0x0102030405060708 }) := by decide
/-- V-DECODE: length 15. -/
theorem test_decode_fifteen_bytes : portAfter (exec (.decode 15 (Vector.replicate 16 0)) .reset) = some .tooShort := by decide
/-- V-DEFAULT. -/
theorem test_default : firstResponse (req 0x04) =
    some (.defaulted { HeaderRecord.zero with r := true }) := by decide
/-- V-WITH: next_hdr = 0x11, and 0x100 is ILLEGAL. -/
theorem test_with_next_hdr :
    portAfter (exec (.withNextHdr defaultRecord 0x11) .reset) = some (.overridden { defaultRecord with nextHdr := 17 }) ∧
    portAfter (exec (.withNextHdr defaultRecord 0x100) .reset) = some .illegal := by decide
/-- R143, R67 at the top value of the field. -/
theorem test_with_hdr_ext_len :
    portAfter (exec (.withHdrExtLen defaultRecord 0xFF) .reset) =
      some (.overridden { defaultRecord with hdrExtLen := 0xFF }) := by decide
/-- R143, R67 at the top value of the field. -/
theorem test_with_crypt_off :
    portAfter (exec (.withCryptOff defaultRecord 0xFF) .reset) =
      some (.overridden { defaultRecord with cryptOff := 0xFF }) := by decide
/-- V-WITH: s = 1, and 2 is ILLEGAL. -/
theorem test_with_s :
    portAfter (exec (.withS defaultRecord 1) .reset) = some (.overridden { defaultRecord with s := true }) ∧
    portAfter (exec (.withS defaultRecord 2) .reset) = some .illegal := by decide
/-- R143: d and not s. -/
theorem test_with_d : portAfter (exec (.withD defaultRecord 1) .reset) =
    some (.overridden { defaultRecord with d := true }) := by decide
/-- V-WITH: 0xF1 is stored as given, 0x100 is ILLEGAL. -/
theorem test_with_version :
    portAfter (exec (.withVersion defaultRecord 0xF1) .reset) = some (.overridden { defaultRecord with version := 0xF1 }) ∧
    portAfter (exec (.withVersion defaultRecord 0x100) .reset) = some .illegal := by decide
/-- R143: vc and not r. -/
theorem test_with_vc : portAfter (exec (.withVc defaultRecord 1) .reset) =
    some (.overridden { defaultRecord with vc := true }) := by decide
/-- V-WITH: r = 0, and r = 1 changes nothing. -/
theorem test_with_r :
    portAfter (exec (.withR defaultRecord 0) .reset) = some (.overridden { defaultRecord with r := false }) ∧
    portAfter (exec (.withR defaultRecord 1) .reset) = some (.overridden defaultRecord) := by decide
/-- V-WITH: spi, and 0x100000000 is ILLEGAL. -/
theorem test_with_spi :
    portAfter (exec (.withSpi defaultRecord 0x12345678) .reset) =
      some (.overridden { defaultRecord with spi := 0x12345678 }) ∧
    portAfter (exec (.withSpi defaultRecord 0x100000000) .reset) = some .illegal := by decide
/-- V-WITH: iv all ones. -/
theorem test_with_iv : portAfter (exec (.withIv defaultRecord 0xFFFFFFFFFFFFFFFF) .reset) =
    some (.overridden { defaultRecord with iv := 0xFFFFFFFFFFFFFFFF }) := by decide
/-- V-BUILD: no validation. -/
theorem test_build : portAfter (exec (.build { defaultRecord with version := 0xF1, r := false }) .reset) =
    some (.built { defaultRecord with version := 0xF1, r := false }) := by decide
/-- V-CMD: a DECODE byte with bit 7 set and a short buffer is ILLEGAL, not TOO_SHORT (R164). -/
theorem test_priority : firstResponse { req 0x83 with bufLen := 3 } = some .illegal := by decide
/-- P4 line 2, as the step runs it. -/
theorem test_step_pack :
    firstResponse { req 0x00 with pkS := true, pkVersion := 0x0F, pkVc := true, pkR := true } = some (.packed 0xFD) := by
  decide
/-- The word stored for the next step is the one it runs, even with a request waiting. -/
theorem test_fetch_word : portAfter (step ((State.reset.present 0 (req 0x07)).withFetchWord 8 0x04)) =
    some (.defaulted defaultRecord) := by decide
/-- A request presented at place 0 is answered before the one already waiting (log 2). -/
theorem test_present_first :
    responses 2 ((State.reset.present 0 (req 0x07)).present 0 (req 0x01)) =
      [.unpacked { s := false, d := false, version := 0, vc := false, r := false }, .illegal] := by decide
/-- A request abandoned at reset is owed until it is presented again (R180, R187). -/
theorem test_abandoned_is_owed :
    ((State.reset.present 0 (req 0x04)).accept.assertReset).abandoned = [req 0x04] ∧
    (((State.reset.present 0 (req 0x04)).accept.assertReset).present 0 (req 0x04)).abandoned = [] := by decide
/-- The status codes (R24). -/
theorem test_status_codes :
    (Response.status .tooShort).code = 1 ∧ (Response.status .illegal).code = 2 ∧ (Response.status (.packed 0)).code = 0 := by
  decide
/-- P4 line 2 and P1 line 3 in the syntax of R71. -/
theorem test_syntax :
    showRequest "" (.pack true false 15 true true) = "PACK 1, 0, 15, 1, 1" ∧
    showRequest "h1" (.withVersion defaultRecord 1) = "WITH h1, version, 1" ∧
    showRequest "" (.decode 2 (Vector.replicate 16 7)) = "DECODE 2, [7, 7]" := by decide

/-! ## Witnesses: a state and operands that meet the hypotheses of each statement -/

theorem witness_RequestsDecodeToWhatTheyEncode :
    decode { req 0x01 with byteIn := 0x84 } = .ok (.unpack 0x84) ∧ decode (req 0x7F) = .error .reservedOp := by decide
theorem witness_StepRunsTheDecodedRequest : decode { req 0x4D with valIn := 5 } = .ok (.withIv .zero 5) := by decide
/-- Lanes that agree below `buf_len` = 3 and differ above it. -/
theorem witness_UnnamedOperandFieldsHaveNoEffect :
    ∀ (i : Nat) (h : i < 16), i < ({ req 0x03 with bufLen := 3 } : Request).bufLen →
      (#v[0, 0, 0, 0xEE, 0, 0, 0, 0, 0, 0, 0, 0, 0, 0, 0, 0] : Wire)[i] =
        ({ req 0x03 with bufLen := 3 } : Request).bufIn[i] := by decide
theorem witness_RequestsAnsweredInOrderAndInAnyOrderAlike :
    2 ≤ ({ State.reset with presented := [req 0x00], inFlight := some (req 0x83) } : State).unanswered.length ∧
    [req 0x00, req 0x01].Perm [req 0x01, req 0x00] := by decide
theorem witness_InstructionsChangeOnlyTheResponse : ∃ t, exec .default .reset = .next t := ⟨_, rfl⟩
theorem witness_PackAfterUnpackGivesTheByte : (15 : Byte) < 16#8 := by decide
/-- W8 for the version, and one byte pair for each other sub-field. -/
theorem witness_SubFieldsAreIsolated :
    (0x55#8 ^^^ 0x54#8) &&& 0xFE#8 = 0#8 ∧ (0x55#8 ^^^ 0x57#8) &&& 0xFD#8 = 0#8 ∧
    (0x55#8 ^^^ 0x69#8) &&& 0xC3#8 = 0#8 ∧ (0x55#8 ^^^ 0x15#8) &&& 0xBF#8 = 0#8 ∧
    (0x55#8 ^^^ 0xD5#8) &&& 0x7F#8 = 0#8 := by decide
theorem witness_DecodeAnswersTheRecord : 16 ≤ 16 ∧ 15 < 16 := by decide
theorem witness_ShortBuffersAnswerTooShort : (List.replicate 15 (0 : Byte)).length < 16 := by decide
theorem witness_BytesBeyondSixteenAreIgnored : (List.replicate 16 (0xEE : Byte)).length = 16 := by decide
theorem witness_DecodedRecordsAreWellFormed : 16 ≤ 20 := by decide
theorem witness_DecodeAfterEncodeGivesTheRecord : ({ defaultRecord with version := 15 } : HeaderRecord).wf = true := by decide
theorem witness_EncodeAfterDecodeGivesTheBytes : defaultRecord.wf = true := by decide
theorem witness_OverridesCommuteAndTheLaterWins :
    valueFits .version 0xFF = true ∧ valueFits .r 0 = true ∧ HeaderField.version ≠ HeaderField.r ∧
    valueFits .version 1 = true ∧ HeaderField.version = HeaderField.version := by decide
theorem witness_VersionIsStoredAsGivenAndTruncatedAtEncode :
    (0xFF : Value).toNat < 256 ∧ (0x10 : Value).toNat < 256 ∧ 16 ≤ (0x10 : Value).toNat ∧
    ∃ t u : State, exec (.decode 16 (encodeHeader { defaultRecord with version := 0x10 })) t = .next u :=
  ⟨by decide, by decide, by decide, .reset, _, rfl⟩
theorem witness_BuildSequenceGivesDefaultsWithLastOverrides :
    ∀ o ∈ ([(.version, 0xF1), (.r, 0), (.version, 1), (.spi, 0xFFFFFFFF)] : List (HeaderField × Value)),
      valueFits o.1 o.2 = true := by decide
/-- One request for each way to be illegal, and one that is not. -/
theorem witness_IllegalEncodingsAnswerIllegal :
    (req 0x83).cmd.getLsbD 7 = true ∧ (req 0x07).cmd.extractLsb' 0 3 = 7#3 ∧
    ((req 0x0B).cmd.extractLsb' 0 3 ≠ 5#3 ∧ (req 0x0B).cmd.extractLsb' 3 4 ≠ 0#4) ∧
    ((req 0x55).cmd.extractLsb' 0 3 = 5#3 ∧ 9#4 < (req 0x55).cmd.extractLsb' 3 4) ∧
    (decodeCmd ({ req 0x1D with valIn := 2 } : Request).cmd = .ok (.withField .s) ∧
      2 ^ fieldWidth .s ≤ ({ req 0x1D with valIn := 2 } : Request).valIn.toNat) ∧
    ¬ ((req 0x03).cmd.getLsbD 7 = true ∨ (req 0x03).cmd.extractLsb' 0 3 = 7#3 ∨
      ((req 0x03).cmd.extractLsb' 0 3 ≠ 5#3 ∧ (req 0x03).cmd.extractLsb' 3 4 ≠ 0#4) ∨
      ((req 0x03).cmd.extractLsb' 0 3 = 5#3 ∧ 9#4 < (req 0x03).cmd.extractLsb' 3 4) ∨
      (∃ f, decodeCmd (req 0x03).cmd = .ok (.withField f) ∧ 2 ^ fieldWidth f ≤ (req 0x03).valIn.toNat)) := by
  refine ⟨by decide, by decide, by decide, by decide, by decide, ?_⟩
  rintro (h | h | h | h | ⟨f, h, -⟩)
  · exact absurd h (by decide)
  · exact absurd h (by decide)
  · exact absurd h (by decide)
  · exact absurd h (by decide)
  · cases f <;> exact absurd h (by decide)
theorem witness_ErrorsAreReportedInOrder :
    decodeCmd (req 0x83).cmd = .error .reservedBit ∧
    (decodeCmd (req 0x2D).cmd = .ok (.withField .version) ∧ 2 ^ fieldWidth .version ≤ (0x100 : Value).toNat) ∧
    (decodeCmd (req 0x03).cmd = .ok .decode ∧ 15 < 16) := by decide
theorem witness_NoFieldValueIsAnError :
    (Instr.build defaultRecord).op ∈ [Op.pack, Op.unpack, Op.encode, Op.default, Op.build] ∧
    (∃ n b, Instr.decode 16 (Vector.replicate 16 0) = .decode n b ∧ 16 ≤ n) ∧
    (∃ f, (Instr.withR defaultRecord 1).op = .withField f) ∧ (Instr.withR defaultRecord 1).wf = true :=
  ⟨by decide, ⟨_, _, rfl, by decide⟩, ⟨_, rfl⟩, by decide⟩
/-- A state with a decoded record on the port and requests waiting is sound and steps. -/
theorem witness_StepKeepsResponsePortSound :
    ({ State.reset with presented := [req 0x03], response := some (.decoded defaultRecord) } : State).PortSound ∧
    ∃ t, step { State.reset with presented := [req 0x03], response := some (.decoded defaultRecord) } = .next t := by
  refine ⟨⟨by simp [State.reset], ?_, by simp⟩, ?_⟩
  · intro h hh
    cases hh
    decide
  · obtain ⟨a, -, h, -⟩ := request_answered (req 0x03)
    exact ⟨_, h { State.reset with response := some (.decoded defaultRecord) }⟩
theorem witness_EventsKeepResponsePortSound :
    State.reset.PortSound ∧
    ∃ t, onEvents [.present 0 (req 0x04), .accept, .reset, .present 0 (req 0x04), .accept, .accept] .reset = .next t :=
  ⟨⟨by simp [State.reset], by simp [State.reset], by simp [State.reset]⟩, _, rfl⟩
theorem witness_BlocksDoNotInteract : (0 : Nat) ≠ 1 := by decide

end Sys2Proof.Tests
end

section
/-! The step, read through acceptance: what it does is settled by the request in flight once acceptance has been tried. -/

namespace Sys2Proof.Machine

/-- R18: the transaction runs at the accepted state, which `exec` therefore sees. -/
theorem step_eq_exec_accept {s : State} {q : Request} {i : Instr} (hq : s.accept.inFlight = some q)
    (hd : decode q = .ok i) : step s = exec i s.accept := by
  simp [step, hq, hd]

/-- Settles O6: the request is in flight once acceptance has been tried, either because it was (nothing is accepted) or
because it waited first (it is accepted, R46). -/
theorem stepRunsTheDecodedRequest : Obligations.StepRunsTheDecodedRequest := by
  intro s q i hd
  constructor
  · have hacc : State.accept { s with inFlight := some q } = { s with inFlight := some q } :=
      State.accept_of_inFlight rfl
    rw [step_eq_exec_accept (by rw [hacc]) hd, hacc]
  · have hacc : State.accept { s with inFlight := none, presented := q :: s.presented } =
        { s with inFlight := some q, response := none } :=
      State.accept_of_presented rfl rfl
    rw [step_eq_exec_accept (by rw [hacc]) hd, hacc]

end Sys2Proof.Machine
end

section
/-! Noninterference: what of a request reaches its response (R20, R25). Requests at which every step agrees get one
response; operand fields an operation does not name never reach the instruction, and lanes without data never reach a
record. -/

namespace Sys2Proof

/-- R25: an operation takes from the request exactly the operands its row names. -/
theorem assemble_encode (i : Instr) (idle : Request) : assemble (encode i idle) i.op = i := by
  cases i <;> rfl

/-- The request that presents an instruction decodes to it, whatever the idle fields hold (R25, R63). -/
theorem decode_encode (i : Instr) (idle : Request) : decode (encode i idle) = .ok i := by
  have hcmd : decodeCmd (encode i idle).cmd = .ok i.op := by rw [encode_cmd, decodeCmd_cmdByte]
  rw [decode_of_ok hcmd, assemble_encode]

end Sys2Proof

namespace Sys2Proof.Machine

/-- A reserved command byte in flight is answered ILLEGAL, whatever the operands are (R63, R164). -/
theorem step_of_reserved {q : Request} {e : Reject} (h : decode q = .error e) (s : State) :
    step { s with inFlight := some q } = .next (s.answer .illegal) := by
  simp [step, State.accept, h, raise_eq, Cause.response, State.answer]

/-- DECODE reads no lane at or above `buf_len`: below 16 bytes it reads none, and from 16 on every lane carries data
(R25, R124, R126). -/
theorem execDecode_congr {n : Nat} {b b' : Wire} (h : ∀ (i : Nat) (hi : i < 16), i < n → b'[i] = b[i]) (s : State) :
    execDecode n b' s = execDecode n b s := by
  by_cases hn : n < Config.wireLen
  · simp [execDecode, hn]
  · have hb : b' = b := Vector.ext fun i hi => h i hi (Nat.lt_of_lt_of_le hi (Nat.le_of_not_lt hn))
    rw [hb]

/-- No operation's meaning depends on the lanes without data: DECODE alone takes the buffer. -/
theorem exec_assemble_lanes {q : Request} {lanes : Wire}
    (h : ∀ (i : Nat) (hi : i < 16), i < q.bufLen → lanes[i] = q.bufIn[i]) (o : Op) (s : State) :
    exec (assemble { q with bufIn := lanes } o) s = exec (assemble q o) s := by
  cases o with
  | decode => exact execDecode_congr h s
  | _ => rfl

/-- No step depends on the lanes without data. -/
theorem step_lanes {q : Request} {lanes : Wire}
    (h : ∀ (i : Nat) (hi : i < 16), i < q.bufLen → lanes[i] = q.bufIn[i]) (s : State) :
    step { s with inFlight := some { q with bufIn := lanes } } = step { s with inFlight := some q } := by
  cases hc : decodeCmd q.cmd with
  | error e =>
    rw [step_of_reserved (decode_of_error (q := { q with bufIn := lanes }) hc), step_of_reserved (decode_of_error hc)]
  | ok o =>
    rw [step_eq_exec (decode_of_ok (q := { q with bufIn := lanes }) hc), step_eq_exec (decode_of_ok hc),
      exec_assemble_lanes h]

/-- Settles O8: the response is the one `request_answered` gives before any state is named. -/
theorem responseDependsOnItsRequestAlone : Obligations.ResponseDependsOnItsRequestAlone := by
  intro q
  obtain ⟨a, hinFlight, -, -⟩ := request_answered q
  exact ⟨a, hinFlight⟩

/-- Two requests in flight at which every step does the same get one response. -/
theorem same_response_of_step_eq {q q' : Request}
    (h : ∀ s : State, step { s with inFlight := some q' } = step { s with inFlight := some q }) :
    ∃ a : Response, ∀ s : State,
      step { s with inFlight := some q } = .next { s with inFlight := none, response := some a } ∧
      step { s with inFlight := some q' } = .next { s with inFlight := none, response := some a } := by
  obtain ⟨a, ha⟩ := responseDependsOnItsRequestAlone q
  exact ⟨a, fun s => ⟨ha s, (h s).trans (ha s)⟩⟩

/-- Settles O9: both requests of the first part decode to the instruction they present, and no step sees the lanes the
requests of the second part differ in. -/
theorem unnamedOperandFieldsHaveNoEffect : Obligations.UnnamedOperandFieldsHaveNoEffect := by
  constructor
  · intro i idle idle'
    refine same_response_of_step_eq fun s => ?_
    rw [step_eq_exec (decode_encode i idle'), step_eq_exec (decode_encode i idle)]
  · intro q lanes hlanes
    exact same_response_of_step_eq (step_lanes hlanes)

end Sys2Proof.Machine
end

section
/-! Sampling and repetition (R46, R47): the response is fixed once the request is, so neither what waits after acceptance
nor what was answered before reaches it. -/

namespace Sys2Proof.Machine

/-- Settles O10: acceptance puts the sampled request in flight, and in flight or waiting first it gets its one response,
whatever waits behind it. That the head of the list is the request accepted is log 2. -/
theorem operandsAreSampledAtAcceptance : Obligations.OperandsAreSampledAtAcceptance := by
  intro s q later
  obtain ⟨a, hinFlight, hwaiting, -⟩ := request_answered q
  refine ⟨a, hwaiting s, ?_⟩
  have hacc : State.accept { s with inFlight := none, presented := q :: s.presented } =
      { s with inFlight := some q, response := none } :=
    State.accept_of_presented rfl rfl
  rw [hacc]
  exact hinFlight { s with presented := later, response := none }

/-- The responses of `n + 1` steps: what the first step returns, then those of the other `n` from the state it leaves. -/
theorem responses_succ_of_step {s t : State} (h : step s = .next t) (n : Nat) :
    responses (n + 1) s = t.response.toList ++ responses n t := by
  simp [responses, h]

/-- A request waiting first that gets response `a` at every state gets it once for each of its `n` copies (R47). -/
theorem responses_replicate {q : Request} {a : Response}
    (h : ∀ s : State, step { s with inFlight := none, presented := q :: s.presented } =
      .next { s with inFlight := none, response := some a }) (n : Nat) (s : State) :
    responses n { s with inFlight := none, presented := List.replicate n q ++ s.presented } = List.replicate n a := by
  induction n generalizing s with
  | zero => rfl
  | succ n ih =>
    have hstep : step { s with inFlight := none, presented := List.replicate (n + 1) q ++ s.presented } =
        .next { s with
          inFlight := none, presented := List.replicate n q ++ s.presented, response := some a } :=
      h { s with presented := List.replicate n q ++ s.presented }
    have hrest := ih { s with response := some a }
    rw [responses_succ_of_step hstep, hrest]
    rfl

/-- Settles O11: by induction on the copies, the answer to each leaving the others at the head (logs 2 and 10). -/
theorem repeatedRequestGetsTheSameResponse : Obligations.RepeatedRequestGetsTheSameResponse := by
  intro s q n
  obtain ⟨a, -, hwaiting, -⟩ := request_answered q
  exact ⟨a, responses_replicate hwaiting n s⟩

end Sys2Proof.Machine
end

section
/-! The wire header at other widths (R40, R42): the bytes of a multi-byte field, read big-endian, are the field. -/

namespace Sys2Proof.Machine

/-- Bytes 4 to 7 of a header, as one big-endian number, are spi (R42). -/
theorem bufReadBE_encodeHeader_spi (h : HeaderRecord) : bufReadBE (encodeHeader h) 4 4 = h.spi := by
  rw [bufReadBE_spi, encodeHeader_eq]
  exact spi_bytes h.spi

/-- Bytes 8 to 15 of a header, as one big-endian number, are iv (R42). -/
theorem bufReadBE_encodeHeader_iv (h : HeaderRecord) : bufReadBE (encodeHeader h) 8 8 = h.iv := by
  rw [bufReadBE_iv, encodeHeader_eq]
  exact iv_bytes h.iv

/-- Settles O23: the two wide views are the fields, and the single bytes are read off the layout (`encodeHeader_eq`). -/
theorem wireViewsGiveTheFields : Obligations.WireViewsGiveTheFields := by
  intro h
  refine ⟨bufReadBE_encodeHeader_spi h, bufReadBE_encodeHeader_iv h, ?_⟩
  rw [encodeHeader_eq]
  exact ⟨rfl, rfl, rfl⟩

end Sys2Proof.Machine
end

section
/-! The command byte, inverted (R60 to R63): what each answer of `decodeCmd` says of the byte. -/

namespace Sys2Proof

/-- R62: an `fsel` that names a field is that field's. -/
theorem HeaderField.sel_of_ofSel {n : Nat} {f : HeaderField} (h : HeaderField.ofSel n = some f) : f.sel = n := by
  unfold HeaderField.ofSel at h
  split at h <;> cases h <;> rfl

/-- R62: the selectors from 0 to 9 all name a field. -/
theorem HeaderField.nine_lt_of_ofSel {n : Nat} (h : HeaderField.ofSel n = none) : 9 < n := by
  by_contra hn
  interval_cases n <;> cases h

/-- R61: 7 is no operation's code. -/
theorem Op.code_ne_seven (o : Op) : o.code ≠ 7 := by
  cases o <;> simp [Op.code]

/-- R60: only WITH has a selector other than 0. -/
theorem Op.sel_eq_zero_of_code_ne_five {o : Op} (h : o.code ≠ 5) : o.sel = 0 := by
  cases o with
  | withField f => exact absurd rfl h
  | _ => rfl

/-- R60, R62: no operation's selector is above 9. -/
theorem Op.sel_le_nine (o : Op) : o.sel ≤ 9 := by
  cases o with
  | withField f => cases f <;> decide
  | _ => exact Nat.zero_le 9

/-- The check of R63 that a rejection names, as it reads on the byte. -/
def Reject.Holds (c : Byte) : Reject → Prop
  | .reservedBit => c.getLsbD 7 = true
  | .reservedOp => c.extractLsb' 0 3 = 7#3
  | .selectorNotZero => c.extractLsb' 0 3 ≠ 5#3 ∧ c.extractLsb' 3 4 ≠ 0#4
  | .reservedSelector => c.extractLsb' 0 3 = 5#3 ∧ 9#4 < c.extractLsb' 3 4

/-- What an answer of `decode_cmd` says of the byte: the check that raised Illegal holds, or bit 7 is clear and the
byte's op and fsel are those of the operation returned (R60, R63). -/
def AnswerFits (c : Byte) : Except Reject Op → Prop
  | .error e => e.Holds c
  | .ok o => c.getLsbD 7 = false ∧ o.code = (c.extractLsb' 0 3).toNat ∧ o.sel = (c.extractLsb' 3 4).toNat

/-- Every answer of `decodeCmd` fits its byte, by the decoder's own case split: bit 7, then op, then fsel. -/
theorem decodeCmd_fits (c : Byte) : AnswerFits c (decodeCmd c) := by
  simp only [decodeCmd]
  split
  · next hbit => exact hbit
  next hbit =>
  rw [Bool.not_eq_true] at hbit
  split
  case h_6 hop =>
    split
    · next hsel => exact ⟨hbit, hop.symm, HeaderField.sel_of_ofSel hsel⟩
    · next hsel => exact ⟨BitVec.eq_of_toNat_eq hop, HeaderField.nine_lt_of_ofSel hsel⟩
  case h_8 =>
    simp only [imp_false] at *
    exact BitVec.eq_of_toNat_eq (by omega : _ = 7)
  all_goals
    next hop =>
    split
    · next hsel => exact ⟨hbit, hop.symm, hsel.symm⟩
    · exact ⟨by bv_omega, by bv_omega⟩

/-- A rejected byte is one at which the check named holds. -/
theorem holds_of_decodeCmd_error {c : Byte} {e : Reject} (h : decodeCmd c = .error e) : e.Holds c := by
  simpa [h, AnswerFits] using decodeCmd_fits c

/-- A legal byte has bit 7 clear, and the op and fsel of the operation it decodes to. -/
theorem fields_of_decodeCmd_ok {c : Byte} {o : Op} (h : decodeCmd c = .ok o) :
    c.getLsbD 7 = false ∧ o.code = (c.extractLsb' 0 3).toNat ∧ o.sel = (c.extractLsb' 3 4).toNat := by
  simpa [h, AnswerFits] using decodeCmd_fits c

/-- At a legal byte no check holds: its op is an operation's code, and its fsel a selector that operation can have. -/
theorem no_check_of_decodeCmd_ok {c : Byte} {o : Op} (h : decodeCmd c = .ok o) :
    c.getLsbD 7 = false ∧ c.extractLsb' 0 3 ≠ 7#3 ∧
    (c.extractLsb' 0 3 = 5#3 ∨ c.extractLsb' 3 4 = 0#4) ∧
    (c.extractLsb' 0 3 = 5#3 → c.extractLsb' 3 4 ≤ 9#4) := by
  obtain ⟨hbit, hcode, hsel⟩ := fields_of_decodeCmd_ok h
  have hseven := o.code_ne_seven
  have hzero := o.sel_eq_zero_of_code_ne_five
  have hnine := o.sel_le_nine
  exact ⟨hbit, by bv_omega, by bv_omega, by bv_omega⟩

/-- One of the four checks of `decode_cmd` raises Illegal (R63). -/
def ReservedByte (c : Byte) : Prop :=
  c.getLsbD 7 = true ∨ c.extractLsb' 0 3 = 7#3 ∨
  (c.extractLsb' 0 3 ≠ 5#3 ∧ c.extractLsb' 3 4 ≠ 0#4) ∨
  (c.extractLsb' 0 3 = 5#3 ∧ 9#4 < c.extractLsb' 3 4)

/-- A rejected byte is reserved. -/
theorem reservedByte_of_decodeCmd_error {c : Byte} {e : Reject} (h : decodeCmd c = .error e) : ReservedByte c := by
  have hcheck := holds_of_decodeCmd_error h
  cases e with
  | reservedBit => exact .inl hcheck
  | reservedOp => exact .inr (.inl hcheck)
  | selectorNotZero => exact .inr (.inr (.inl hcheck))
  | reservedSelector => exact .inr (.inr (.inr hcheck))

/-- A legal byte is not reserved. -/
theorem not_reservedByte_of_decodeCmd_ok {c : Byte} {o : Op} (h : decodeCmd c = .ok o) : ¬ ReservedByte c := by
  obtain ⟨hbit, hop, hsel, hwith⟩ := no_check_of_decodeCmd_ok h
  rintro (hr | hr | ⟨hne, hr⟩ | ⟨heq, hr⟩)
  · exact Bool.noConfusion (hbit.symm.trans hr)
  · exact hop hr
  · exact hsel.elim hne hr
  · exact absurd hr (BitVec.not_lt.mpr (hwith heq))

/-- The sixteen legal bytes among the 256 (R63). -/
theorem legal_bytes : ((List.range 256).filter fun n => (decodeCmd (BitVec.ofNat 8 n)).toOption.isSome)
    = [0, 1, 2, 3, 4, 5, 6, 13, 21, 29, 37, 45, 53, 61, 69, 77] := by
  decide

/-- Settles O2: an answer of the decoder says which check holds, or that none does and what op and fsel are; the list of
legal bytes is computed. -/
theorem commandBytesDecodeAsDecodeCmd : Obligations.CommandBytesDecodeAsDecodeCmd := by
  refine ⟨fun c => ?_, legal_bytes⟩
  cases h : decodeCmd c with
  | error e => exact reservedByte_of_decodeCmd_error h
  | ok o =>
    obtain ⟨hbit, hop, hsel, hwith⟩ := no_check_of_decodeCmd_ok h
    obtain ⟨-, hcode, hfsel⟩ := fields_of_decodeCmd_ok h
    exact ⟨hbit, hop, hsel, hwith, hcode, hfsel⟩

/-- A row of R62's table: the field's `fsel`, command byte, name and width. -/
def withRow (f : HeaderField) : Nat × Byte × HeaderField × Nat :=
  (f.sel, (Op.withField f).cmdByte, f, Machine.fieldWidth f)

/-- Settles O1: each row is its field's, whose command byte decodes to it (`decodeCmd_cmdByte`); the six reserved bytes
are evaluated. -/
theorem withBytesNameTheirFields : Obligations.WithBytesNameTheirFields := by
  refine ⟨fun row hmem => ?_, by decide⟩
  obtain ⟨f, rfl⟩ : ∃ f, row = withRow f := by
    refine ⟨row.2.2.1, ?_⟩
    revert row
    decide
  exact ⟨rfl, decodeCmd_cmdByte (.withField f), rfl⟩

end Sys2Proof
end

section
/-! Which requests are ILLEGAL (R67, R68): a reserved command byte, or a WITH value too wide for its field. -/

namespace Sys2Proof.Machine

/-- R67: the values that do not fit a field of width `W` are those from `2 ^ W` on. -/
theorem valueFits_eq_false_iff {f : HeaderField} {v : Value} :
    valueFits f v = false ↔ 2 ^ fieldWidth f ≤ v.toNat := by
  have hfits : v >>> fieldWidth f = 0#64 ↔ v.toNat < 2 ^ fieldWidth f := by
    rw [BitVec.toNat_eq, BitVec.toNat_ushiftRight, Nat.shiftRight_eq_div_pow]
    simp [Nat.div_eq_zero_iff]
  rw [valueFits, beq_eq_false_iff_ne, ne_eq, hfits, Nat.not_lt]

/-- A value too wide for the field that the request's WITH names (R67, R68). -/
def WideValue (q : Request) : Prop :=
  ∃ f : HeaderField, decodeCmd q.cmd = .ok (.withField f) ∧ 2 ^ fieldWidth f ≤ q.valIn.toNat

/-- A request in flight whose WITH value is too wide is answered ILLEGAL (R67, R143). -/
theorem step_of_wideValue {q : Request} (h : WideValue q) (s : State) :
    step { s with inFlight := some q } = .next (s.answer .illegal) := by
  obtain ⟨f, hcmd, hwide⟩ := h
  rw [step_eq_exec (decode_of_ok hcmd)]
  exact (exec_withField f q.recIn q.valIn s).trans
    (overrideField_of_wide q.recIn s (valueFits_eq_false_iff.mpr hwide))

/-- DECODE answers TOO_SHORT or a record (R123, R124). -/
theorem execDecode_answers_legally (n : Nat) (b : Wire) :
    ∃ a : Response, a.status ≠ .illegal ∧ ∀ s : State, execDecode n b s = .next (s.answer a) := by
  by_cases hn : n < Config.wireLen
  · exact ⟨.tooShort, by decide, fun s => by simp [execDecode, hn, raise_eq, Cause.response]⟩
  · exact ⟨.decoded (decodeHeader b), by simp [Response.status], fun s => by simp [execDecode, hn, respond_eq]⟩

/-- The operation of a legal byte answers with a status other than ILLEGAL, unless it is a WITH of a value too wide:
no other operation raises ILLEGAL (R68, R163). -/
theorem exec_assemble_answers_legally {q : Request} {o : Op} (hcmd : decodeCmd q.cmd = .ok o) (hfits : ¬ WideValue q) :
    ∃ a : Response, a.status ≠ .illegal ∧ ∀ s : State, exec (assemble q o) s = .next (s.answer a) := by
  cases o with
  | decode => exact execDecode_answers_legally q.bufLen q.bufIn
  | withField f =>
    have hv : valueFits f q.valIn = true := by
      rw [← Bool.not_eq_false, valueFits_eq_false_iff]
      exact fun hwide => hfits ⟨f, hcmd, hwide⟩
    exact ⟨.overridden (setField f q.recIn q.valIn), by simp [Response.status], fun s =>
      (exec_withField f q.recIn q.valIn s).trans (overrideField_of_fits q.recIn s hv)⟩
  | _ => exact ⟨_, Status.noConfusion, fun _ => rfl⟩

/-- R68: a request in flight that is an illegal encoding is answered ILLEGAL. -/
theorem step_of_illegal {q : Request} (h : ReservedByte q.cmd ∨ WideValue q) (s : State) :
    step { s with inFlight := some q } = .next (s.answer .illegal) := by
  cases hcmd : decodeCmd q.cmd with
  | error e => exact step_of_reserved (decode_of_error hcmd) s
  | ok o => exact step_of_wideValue (h.resolve_left (not_reservedByte_of_decodeCmd_ok hcmd)) s

/-- R68: a request that is no illegal encoding is answered with another status. -/
theorem step_of_legal {q : Request} (h : ¬ (ReservedByte q.cmd ∨ WideValue q)) :
    ∃ a : Response, a.status ≠ .illegal ∧ ∀ s : State, step { s with inFlight := some q } = .next (s.answer a) := by
  obtain ⟨hreserved, hwide⟩ := not_or.mp h
  cases hcmd : decodeCmd q.cmd with
  | error e => exact absurd (reservedByte_of_decodeCmd_error hcmd) hreserved
  | ok o =>
    obtain ⟨a, hstatus, ha⟩ := exec_assemble_answers_legally hcmd hwide
    exact ⟨a, hstatus, fun s => (step_eq_exec (decode_of_ok hcmd) s).trans (ha s)⟩

/-- Settles O39: the five causes are the four checks on the command byte and the WITH value too wide. -/
theorem illegalEncodingsAnswerIllegal : Obligations.IllegalEncodingsAnswerIllegal := by
  intro q illegal
  have hillegal : illegal ↔ ReservedByte q.cmd ∨ WideValue q := by
    simp only [illegal, ReservedByte, WideValue, or_assoc]
  rw [hillegal]
  exact ⟨step_of_illegal, step_of_legal⟩

end Sys2Proof.Machine
end

section
/-! The flags byte (R65, R100): `pack8` bit by bit, as the shifts and masks of R100, and against `unpack8`. -/

namespace Sys2Proof.Machine

/-- Two tuples of sub-fields are equal when each of the five is. -/
theorem FlagFields.ext {x y : FlagFields} (hs : x.s = y.s) (hd : x.d = y.d) (hversion : x.version = y.version)
    (hvc : x.vc = y.vc) (hr : x.r = y.r) : x = y := by
  cases x
  cases y
  simp_all

/-- The layout of the flags byte: which sub-field each bit is (R65). -/
theorem getLsbD_pack8 (s d : Bool) (v : Byte) (vc r : Bool) {i : Nat} (hi : i < 8) :
    (pack8 s d v vc r).getLsbD i =
      if i < 1 then s else if i < 2 then d else if i < 6 then v.getLsbD (i - 2) else if i < 7 then vc else r := by
  unfold pack8 bit bits
  rw [BitVec.getLsbD_append, BitVec.getLsbD_append, BitVec.getLsbD_append, BitVec.getLsbD_append]
  interval_cases i <;> simp

/-- R100: `pack8` by shifts, the version masked to its 4 low bits before it is shifted. -/
theorem pack8_eq_or (s d : Bool) (v : Byte) (vc r : Bool) :
    pack8 s d v vc r =
      ((BitVec.ofBool r).setWidth 8 <<< 7) ||| ((BitVec.ofBool vc).setWidth 8 <<< 6) |||
      ((v &&& 0xF#8) <<< 2) ||| ((BitVec.ofBool d).setWidth 8 <<< 1) ||| (BitVec.ofBool s).setWidth 8 := by
  apply BitVec.eq_of_getLsbD_eq
  intro i hi
  rw [getLsbD_pack8 _ _ _ _ _ hi]
  interval_cases i <;> simp

/-- R100, R104: the sub-fields of a byte, read off the number it is. -/
theorem unpack8_eq (b : Byte) : unpack8 b =
    { s := b.toNat.testBit 0, d := b.toNat.testBit 1, version := BitVec.ofNat 4 (b.toNat / 4),
      vc := b.toNat.testBit 6, r := b.toNat.testBit 7 } := by
  have hversion : bits b 2 4 = BitVec.ofNat 4 (b.toNat / 4) :=
    congrArg (BitVec.ofNat 4) (Nat.shiftRight_eq_div_pow b.toNat 2)
  exact FlagFields.ext rfl rfl hversion rfl rfl

/-- R102: the sub-fields come back, the version as its 4 low bits. -/
theorem unpack8_pack8 (s d : Bool) (v : Byte) (vc r : Bool) :
    unpack8 (pack8 s d v vc r) = { s := s, d := d, version := BitVec.ofNat 4 v.toNat, vc := vc, r := r } := by
  have hversion : bits (pack8 s d v vc r) 2 4 = BitVec.ofNat 4 v.toNat := by
    apply BitVec.eq_of_getLsbD_eq
    intro i hi
    have hversionBit : (pack8 s d v vc r).getLsbD (2 + i) = v.getLsbD i := by
      rw [getLsbD_pack8 _ _ _ _ _ (by omega), if_neg (by omega), if_neg (by omega), if_pos (by omega),
        Nat.add_sub_cancel_left]
    simp [bits, hi, hversionBit]
  exact FlagFields.ext (getLsbD_pack8 _ _ _ _ _ (by decide)) (getLsbD_pack8 _ _ _ _ _ (by decide)) hversion
    (getLsbD_pack8 _ _ _ _ _ (by decide)) (getLsbD_pack8 _ _ _ _ _ (by decide))

/-- R103: the byte comes back. -/
theorem pack8_unpack8 (b : Byte) :
    pack8 (unpack8 b).s (unpack8 b).d ((unpack8 b).version.setWidth 8) (unpack8 b).vc (unpack8 b).r = b := by
  apply BitVec.eq_of_getLsbD_eq
  intro i hi
  rw [getLsbD_pack8 _ _ _ _ _ hi]
  interval_cases i <;> simp [unpack8, boolAt, bits]

/-- A version below 16 is its 4 low bits, widened with zeros (R66). -/
theorem setWidth_low_version {v : Byte} (h : v < 16#8) : (BitVec.ofNat 4 v.toNat).setWidth 8 = v := by
  bv_omega

/-- Settles O16: the two forms of the functions, `pack8_eq_or` and `unpack8_eq`. -/
theorem packAndUnpackFunctions : Obligations.PackAndUnpackFunctions := by
  refine ⟨pack8_eq_or, fun b => ?_⟩
  rw [unpack8_eq]
  exact ⟨rfl, rfl, BitVec.toNat_ofNat _ _, rfl, rfl⟩

end Sys2Proof.Machine
end

section
/-! PACK and UNPACK as operations (R101 to R104): what each answers, and that they undo each other. -/

namespace Sys2Proof.Machine

/-- PACK answers the flags byte of its operands (R101). -/
theorem exec_pack (sBit dBit : Bool) (v : Byte) (vcBit rBit : Bool) (s : State) :
    exec (.pack sBit dBit v vcBit rBit) s = .next (s.answer (.packed (pack8 sBit dBit v vcBit rBit))) := rfl

/-- UNPACK answers the sub-fields of its byte (R104). -/
theorem exec_unpack (b : Byte) (s : State) : exec (.unpack b) s = .next (s.answer (.unpacked (unpack8 b))) := rfl

/-- Settles O17: the flags byte in R100's form, and the request with PACK's command byte runs PACK on its operand
fields. -/
theorem packAnswersTheFlagsByte : Obligations.PackAnswersTheFlagsByte := by
  refine ⟨fun s sBit dBit v vcBit rBit => ?_, fun s q => ?_, fun _ => rfl⟩
  · rw [exec_pack, pack8_eq_or, State.answer]
  · rw [step_of_cmd (o := .pack) rfl, assemble, exec_pack, pack8_eq_or, State.answer]

/-- Settles O18: the sub-fields read off the byte's number, and the request with UNPACK's command byte runs UNPACK on
`byte_in`. -/
theorem unpackAnswersTheSubFields : Obligations.UnpackAnswersTheSubFields := by
  refine ⟨fun s b => ?_, fun s q => ?_, fun _ => rfl⟩
  · rw [exec_unpack, unpack8_eq, State.answer]
  · rw [step_of_cmd (o := .unpack) rfl, assemble, exec_unpack, unpack8_eq, State.answer]

/-- Settles O19: the byte is the one PACK answers, and `unpack8` takes it apart again (`unpack8_pack8`). -/
theorem unpackAfterPackGivesTheSubFields : Obligations.UnpackAfterPackGivesTheSubFields := by
  intro s sBit dBit v vcBit rBit
  refine ⟨pack8 sBit dBit v vcBit rBit, exec_pack sBit dBit v vcBit rBit s, fun t => ?_⟩
  rw [exec_unpack, unpack8_pack8, State.answer]

/-- Settles O20: `pack8` puts the byte together again (`pack8_unpack8`), and a version below 16 survives the way through
4 bits. -/
theorem packAfterUnpackGivesTheByte : Obligations.PackAfterUnpackGivesTheByte := by
  constructor
  · intro s b
    refine ⟨unpack8 b, exec_unpack b s, fun t => ?_⟩
    rw [exec_pack, pack8_unpack8, State.answer]
  · intro sBit dBit v vcBit rBit hv
    rw [unpack8_pack8]
    exact ⟨rfl, rfl, setWidth_low_version hv, rfl, rfl⟩

end Sys2Proof.Machine
end

section
/-! Bit isolation (R105): `pack8` works on each sub-field by itself, so the bitwise difference of two flags bytes is the
flags byte of the differences, and a mask is itself a flags byte. -/

namespace Sys2Proof.Machine

/-- The difference of two flags bytes is the flags byte of the differences. -/
theorem pack8_xor_pack8 (s d : Bool) (v : Byte) (vc r s' d' : Bool) (v' : Byte) (vc' r' : Bool) :
    pack8 s d v vc r ^^^ pack8 s' d' v' vc' r' = pack8 (s ^^ s') (d ^^ d') (v ^^^ v') (vc ^^ vc') (r ^^ r') := by
  apply BitVec.eq_of_getLsbD_eq
  intro i hi
  simp only [BitVec.getLsbD_xor, getLsbD_pack8 _ _ _ _ _ hi]
  split_ifs <;> rfl

/-- Masking a flags byte masks each of its sub-fields. -/
theorem pack8_and_pack8 (s d : Bool) (v : Byte) (vc r s' d' : Bool) (v' : Byte) (vc' r' : Bool) :
    pack8 s d v vc r &&& pack8 s' d' v' vc' r' = pack8 (s && s') (d && d') (v &&& v') (vc && vc') (r && r') := by
  apply BitVec.eq_of_getLsbD_eq
  intro i hi
  simp only [BitVec.getLsbD_and, getLsbD_pack8 _ _ _ _ _ hi]
  split_ifs <;> rfl

/-- The flags byte of sub-fields that are all false or zero. -/
theorem pack8_zero : pack8 false false 0#8 false false = 0#8 := rfl

/-- Changing one sub-field changes no bit outside its positions: each mask is the flags byte that keeps the other four,
where the difference is zero. -/
theorem pack8_differs_only_at (s d : Bool) (v : Byte) (vc r s' d' : Bool) (v' : Byte) (vc' r' : Bool) :
    (pack8 s d v vc r ^^^ pack8 s' d v vc r) &&& pack8 false true 0xF#8 true true = 0#8 ∧
    (pack8 s d v vc r ^^^ pack8 s d' v vc r) &&& pack8 true false 0xF#8 true true = 0#8 ∧
    (pack8 s d v vc r ^^^ pack8 s d v' vc r) &&& pack8 true true 0x0#8 true true = 0#8 ∧
    (pack8 s d v vc r ^^^ pack8 s d v vc' r) &&& pack8 true true 0xF#8 false true = 0#8 ∧
    (pack8 s d v vc r ^^^ pack8 s d v vc r') &&& pack8 true true 0xF#8 true false = 0#8 := by
  simp [pack8_xor_pack8, pack8_and_pack8, pack8_zero]

/-- Values that agree at the bits of a mask agree at each of them. -/
theorem boolAt_eq_of_agree {w : Nat} {x y m : BitVec w} (h : (x ^^^ y) &&& m = 0#w) {i : Nat}
    (hm : m.getLsbD i = true) : boolAt y i = boolAt x i := by
  have hbit : ((x ^^^ y) &&& m).getLsbD i = false := by rw [h, BitVec.getLsbD_zero]
  rw [BitVec.getLsbD_and, BitVec.getLsbD_xor, hm, Bool.and_true] at hbit
  exact (bne_eq_false_iff_eq.mp hbit).symm

/-- Values that agree at the bits of a mask agree on a field that lies inside it. -/
theorem bits_eq_of_agree {w : Nat} {x y m : BitVec w} (h : (x ^^^ y) &&& m = 0#w) {lo len : Nat}
    (hm : ∀ i < len, m.getLsbD (lo + i) = true) : bits y lo len = bits x lo len := by
  apply BitVec.eq_of_getLsbD_eq
  intro i hi
  have hbit : y.getLsbD (lo + i) = x.getLsbD (lo + i) := boolAt_eq_of_agree h (hm i hi)
  simp only [bits, BitVec.getLsbD_extractLsb', hbit]

/-- Settles O21: packed, the masks written as numbers are those of `pack8_differs_only_at`; unpacked, four sub-fields lie
inside the mask and agree, and the fifth is the one replaced. -/
theorem subFieldsAreIsolated : Obligations.SubFieldsAreIsolated := by
  refine ⟨pack8_differs_only_at, fun b b' => ⟨fun h => ?_, fun h => ?_, fun h => ?_, fun h => ?_, fun h => ?_⟩⟩
  · exact FlagFields.ext rfl (boolAt_eq_of_agree h rfl) (bits_eq_of_agree h (by decide))
      (boolAt_eq_of_agree h rfl) (boolAt_eq_of_agree h rfl)
  · exact FlagFields.ext (boolAt_eq_of_agree h rfl) rfl (bits_eq_of_agree h (by decide))
      (boolAt_eq_of_agree h rfl) (boolAt_eq_of_agree h rfl)
  · exact FlagFields.ext (boolAt_eq_of_agree h rfl) (boolAt_eq_of_agree h rfl) rfl (boolAt_eq_of_agree h rfl)
      (boolAt_eq_of_agree h rfl)
  · exact FlagFields.ext (boolAt_eq_of_agree h rfl) (boolAt_eq_of_agree h rfl) (bits_eq_of_agree h (by decide))
      rfl (boolAt_eq_of_agree h rfl)
  · exact FlagFields.ext (boolAt_eq_of_agree h rfl) (boolAt_eq_of_agree h rfl) (bits_eq_of_agree h (by decide))
      (boolAt_eq_of_agree h rfl) rfl

end Sys2Proof.Machine
end

section
/-! The wire header (R64, R128, R129): `encodeHeader` and `decodeHeader` undo each other, byte by byte and field by
field. -/

namespace Sys2Proof.Machine

/-- The byte with `m` bytes below it in a big-endian read of `k + 1 + m` bytes is the one at offset `off + k` (R16). -/
theorem extract_bufReadBE (b : Wire) (off k m : Nat) (h : off + k + m < 16) :
    (bufReadBE b off (k + 1 + m)).extractLsb' (8 * m) 8 = b[off + k] := by
  induction m with
  | zero =>
    rw [Nat.add_zero, bufReadBE_succ b off k h]
    exact append_low_byte _ _
  | succ m ih =>
    rw [← Nat.add_assoc, bufReadBE_succ b off (k + 1 + m) (by omega)]
    exact (append_high_byte _ _ (8 * m)).trans (ih (by omega))

/-- Four bits widened with zeros are a number below 16 (R66). -/
theorem setWidth_ofNat_four (n : Nat) : (BitVec.ofNat 4 n).setWidth 8 = BitVec.ofNat 8 (n % 16) := by
  apply BitVec.eq_of_toNat_eq
  simp

/-- The 4 low bits of a version, widened with zeros, are the version masked (R66, R100). -/
theorem setWidth_version_nibble (v : Byte) : (BitVec.ofNat 4 v.toNat).setWidth 8 = v &&& 0xF#8 := by
  rw [setWidth_ofNat_four]
  apply BitVec.eq_of_toNat_eq
  rw [BitVec.toNat_ofNat, BitVec.toNat_and, show (0xF#8).toNat = 2 ^ 4 - 1 from rfl, Nat.and_two_pow_sub_one_eq_mod]
  omega

/-- A well-formed record's version is below 16 (R27). -/
theorem wf_iff_version_lt (h : HeaderRecord) : h.wf = true ↔ h.version < 16#8 := decide_eq_true_iff

/-- The mask leaves a well-formed record as it is. -/
theorem mask_version_of_wf {h : HeaderRecord} (hwf : h.wf = true) : { h with version := h.version &&& 0xF#8 } = h := by
  rw [← setWidth_version_nibble, setWidth_low_version ((wf_iff_version_lt h).mp hwf)]

/-- R123: the record of a wire header, its sub-fields read off the number byte 3 is. -/
theorem decodeHeader_eq (b : Wire) : decodeHeader b =
    { nextHdr := b[0], hdrExtLen := b[1], cryptOff := b[2],
      s := b[3].toNat.testBit 0, d := b[3].toNat.testBit 1, version := BitVec.ofNat 8 (b[3].toNat / 4 % 16),
      vc := b[3].toNat.testBit 6, r := b[3].toNat.testBit 7,
      spi := b[4] ++ b[5] ++ b[6] ++ b[7],
      iv := b[8] ++ b[9] ++ b[10] ++ b[11] ++ b[12] ++ b[13] ++ b[14] ++ b[15] } := by
  simp only [decodeHeader, unpack8_eq, setWidth_ofNat_four, bufReadBE_spi, bufReadBE_iv]

/-- R125: a decoded version comes from 4 bits. -/
theorem decodeHeader_wf (b : Wire) : (decodeHeader b).wf = true := by
  have hversion : (decodeHeader b).version = (unpack8 b[3]).version.setWidth 8 := rfl
  rw [wf_iff_version_lt, hversion]
  bv_omega

/-- R128: every field comes back, the version as its 4 low bits. -/
theorem decodeHeader_encodeHeader (h : HeaderRecord) :
    decodeHeader (encodeHeader h) = { h with version := h.version &&& 0xF#8 } := by
  have hflags : unpack8 (encodeHeader h)[3] =
      { s := h.s, d := h.d, version := BitVec.ofNat 4 h.version.toNat, vc := h.vc, r := h.r } := by
    rw [encodeHeader_eq]
    exact unpack8_pack8 ..
  simp only [decodeHeader, hflags, setWidth_version_nibble, bufReadBE_encodeHeader_spi, bufReadBE_encodeHeader_iv]
  rw [encodeHeader_eq]
  rfl

/-- R128 for a well-formed record. -/
theorem decodeHeader_encodeHeader_of_wf {h : HeaderRecord} (hwf : h.wf = true) :
    decodeHeader (encodeHeader h) = h := by
  rw [decodeHeader_encodeHeader, mask_version_of_wf hwf]

/-- R129: every byte comes back, byte 3 as the flags byte of its sub-fields and the others each as their part of a
big-endian read. -/
theorem encodeHeader_decodeHeader (b : Wire) : encodeHeader (decodeHeader b) = b := by
  have hspi (k m : Nat) (h : k + m = 3) : (bufReadBE b 4 (k + 1 + m)).extractLsb' (8 * m) 8 = b[4 + k] :=
    extract_bufReadBE b 4 k m (by omega)
  have hiv (k m : Nat) (h : k + m = 7) : (bufReadBE b 8 (k + 1 + m)).extractLsb' (8 * m) 8 = b[8 + k] :=
    extract_bufReadBE b 8 k m (by omega)
  rw [encodeHeader_eq]
  ext i hi : 1
  interval_cases i
  exacts [rfl, rfl, rfl, pack8_unpack8 b[3],
    hspi 0 3 rfl, hspi 1 2 rfl, hspi 2 1 rfl, hspi 3 0 rfl,
    hiv 0 7 rfl, hiv 1 6 rfl, hiv 2 5 rfl, hiv 3 4 rfl, hiv 4 3 rfl, hiv 5 2 rfl, hiv 6 1 rfl, hiv 7 0 rfl]

/-- R129: encoding takes the well-formed records one to one onto the 16-byte buffers. -/
theorem encodeHeader_bijOn : Set.BijOn encodeHeader { h : HeaderRecord | h.wf = true } Set.univ := by
  have hinv : Set.InvOn decodeHeader encodeHeader { h : HeaderRecord | h.wf = true } Set.univ :=
    ⟨fun _ hwf => decodeHeader_encodeHeader_of_wf hwf, fun b _ => encodeHeader_decodeHeader b⟩
  exact hinv.bijOn (Set.mapsTo_univ _ _) fun b _ => decodeHeader_wf b

end Sys2Proof.Machine
end

section
/-! ENCODE and DECODE as operations (R120 to R129): what each answers, and that they undo each other. -/

namespace Sys2Proof.Machine

/-- ENCODE answers the wire header of its record (R120). -/
theorem exec_encode (h : HeaderRecord) (s : State) :
    exec (.encode h) s = .next (s.answer (.encoded (encodeHeader h))) := rfl

/-- DECODE of 16 bytes or more answers the record of its lanes (R123). -/
theorem exec_decode_of_le {n : Nat} (hn : 16 ≤ n) (b : Wire) (s : State) :
    exec (.decode n b) s = .next (s.answer (.decoded (decodeHeader b))) :=
  if_neg (Nat.not_lt.mpr hn)

/-- DECODE of fewer than 16 bytes answers TOO_SHORT (R124). -/
theorem exec_decode_of_lt {n : Nat} (hn : n < 16) (b : Wire) (s : State) :
    exec (.decode n b) s = .next (s.answer .tooShort) :=
  if_pos hn

/-- Lane for lane, a 16-byte buffer and what extends it reach the block alike (R126). -/
theorem lanesOf_append {buf : List Byte} (hlen : buf.length = 16) (more : List Byte) (noData noData' : Wire) :
    lanesOf (buf ++ more) noData' = lanesOf buf noData := by
  ext i hi : 1
  have hbuf : i < buf.length := by omega
  have happend : i < (buf ++ more).length := by rw [List.length_append]; omega
  rw [lanesOf_get _ _ _ hi, lanesOf_get _ _ _ hi, dif_pos happend, dif_pos hbuf, List.getElem_append_left hbuf]

/-- Settles O28: the bytes are the record's wire header, and `decodeHeader_encodeHeader` takes it apart again. -/
theorem decodeAfterEncodeGivesTheRecord : Obligations.DecodeAfterEncodeGivesTheRecord := by
  intro s h
  refine ⟨encodeHeader h, exec_encode h s, fun t => ?_, fun hwf t => ?_⟩
  · rw [exec_decode_of_le le_rfl, decodeHeader_encodeHeader, State.answer]
  · rw [exec_decode_of_le le_rfl, decodeHeader_encodeHeader_of_wf hwf, State.answer]

/-- Settles O29: the record is the one of the wire header, and `encodeHeader_decodeHeader` puts the bytes together
again; the bijection is `encodeHeader_bijOn`. -/
theorem encodeAfterDecodeGivesTheBytes : Obligations.EncodeAfterDecodeGivesTheBytes := by
  refine ⟨fun s b => ⟨decodeHeader b, exec_decode_of_le le_rfl b s, fun t => ?_⟩, encodeHeader_bijOn,
    fun _ => decodeHeader_encodeHeader_of_wf⟩
  rw [exec_encode, encodeHeader_decodeHeader, State.answer]

/-- Settles O22: the layout is `encodeHeader_eq` with the flags byte in R100's form, and the request with ENCODE's
command byte runs ENCODE on `rec_in`. -/
theorem encodeAnswersTheWireHeader : Obligations.EncodeAnswersTheWireHeader := by
  unfold Obligations.EncodeAnswersTheWireHeader
  intro wire
  have hwire (h : HeaderRecord) : encodeHeader h = wire h := by
    rw [encodeHeader_eq, pack8_eq_or]
    rfl
  refine ⟨fun s h => ?_, fun s q => ?_, rfl⟩
  · rw [exec_encode, hwire, State.answer]
  · rw [step_of_cmd (o := .encode) rfl, assemble, exec_encode, hwire, State.answer]

/-- Settles O24: the record is `decodeHeader_eq`, and the request with DECODE's command byte runs DECODE on `buf_len`
and `buf_in`. -/
theorem decodeAnswersTheRecord : Obligations.DecodeAnswersTheRecord := by
  unfold Obligations.DecodeAnswersTheRecord
  intro record
  have hrecord (b : Wire) : decodeHeader b = record b := decodeHeader_eq b
  refine ⟨fun s n b hn => ?_, fun s n b hn => exec_decode_of_lt hn b s, fun s q => ?_, rfl⟩
  · rw [exec_decode_of_le hn, hrecord, State.answer]
  · rw [step_of_cmd (o := .decode) rfl, assemble]
    by_cases hn : q.bufLen < 16
    · rw [exec_decode_of_lt hn, if_pos hn, State.answer]
    · rw [exec_decode_of_le (Nat.not_lt.mp hn), if_neg hn, hrecord, State.answer]

/-- Settles O26: both lengths are at least 16, and the lanes are the same (`lanesOf_append`). -/
theorem bytesBeyondSixteenAreIgnored : Obligations.BytesBeyondSixteenAreIgnored := by
  intro buf more noData noData' hlen
  have hmore : 16 ≤ (buf ++ more).length := by rw [List.length_append]; omega
  refine ⟨decodeHeader (lanesOf buf noData), fun s => ⟨exec_decode_of_le hlen.ge _ s, ?_⟩⟩
  rw [exec_decode_of_le hmore, lanesOf_append hlen, State.answer]

/-- Settles O27: the record is the one of the lanes, whose version comes from 4 bits (`decodeHeader_wf`). -/
theorem decodedRecordsAreWellFormed : Obligations.DecodedRecordsAreWellFormed :=
  fun s _ b hn => ⟨decodeHeader b, exec_decode_of_le hn b s, decodeHeader_wf b⟩

/-- Settles O25: the buffer's own length is below 16, so no lane is read. -/
theorem shortBuffersAnswerTooShort : Obligations.ShortBuffersAnswerTooShort :=
  fun s buf noData hlen => exec_decode_of_lt hlen (lanesOf buf noData) s

/-- Settles O30: the layout (`encodeHeader_eq`), its sixteen bytes evaluated. -/
theorem concreteVectorEncodes : Obligations.ConcreteVectorEncodes := by
  intro s
  rw [exec_encode, encodeHeader_eq, State.answer]
  rfl

end Sys2Proof.Machine
end

section
/-! DEFAULT and BUILD as operations (R140, R141, R147): the constant, and the record as it was given. -/

namespace Sys2Proof.Machine

/-- DEFAULT answers the constant of the block (R140). -/
theorem exec_default (s : State) : exec .default s = .next (s.answer (.defaulted defaultRecord)) := rfl

/-- BUILD answers its record, well-formed or not (R147, R148). -/
theorem exec_build (h : HeaderRecord) (s : State) : exec (.build h) s = .next (s.answer (.built h)) := rfl

/-- The default vector (R141): every field sends zeros, but the R bit. -/
theorem encodeHeader_defaultRecord :
    encodeHeader defaultRecord = #v[0, 0, 0, 0x80, 0, 0, 0, 0, 0, 0, 0, 0, 0, 0, 0, 0] := by
  rw [encodeHeader_eq]
  rfl

/-- Settles O31: the record written out is the block's constant, the request with DEFAULT's command byte runs DEFAULT,
and ENCODE of the constant gives the default vector. -/
theorem defaultAnswersTheDefaultRecord : Obligations.DefaultAnswersTheDefaultRecord := by
  refine ⟨exec_default, fun s q => ?_, fun s => ?_⟩
  · exact (step_of_cmd (decodeCmd_cmdByte .default) q s).trans (exec_default s)
  · exact (exec_encode defaultRecord s).trans (by rw [encodeHeader_defaultRecord, State.answer])

/-- Settles O37: the request with BUILD's command byte runs BUILD on `rec_in`. -/
theorem buildAnswersItsRecord : Obligations.BuildAnswersItsRecord :=
  ⟨fun s h => exec_build h s, fun s q =>
    (step_of_cmd (decodeCmd_cmdByte .build) q s).trans (exec_build q.recIn s)⟩

end Sys2Proof.Machine
end

section
/-! WITH as an operation (R143, R144): one field replaced by a value below `2 ^ W`, ILLEGAL from there on. -/

namespace Sys2Proof.Machine

/-- R67: the values that fit a field of width `W` are those below `2 ^ W`. -/
theorem valueFits_iff {f : HeaderField} {v : Value} : valueFits f v = true ↔ v.toNat < 2 ^ fieldWidth f := by
  rw [← Bool.not_eq_false, valueFits_eq_false_iff, Nat.not_le]

/-- A one-bit value is its bit 0 (R14, R67). -/
theorem boolAt_zero_of_lt_two {v : Value} (hv : v.toNat < 2) : boolAt v 0 = decide (v.toNat = 1) := by
  rw [boolAt, ← BitVec.testBit_toNat, Nat.testBit_zero, Nat.mod_eq_of_lt hv]

/-- What WITH does, whatever its field: the field replaced, or ILLEGAL (R143, R67). -/
theorem exec_withField_eq_ite (f : HeaderField) (h : HeaderRecord) (v : Value) (s : State) :
    exec (.withField f h v) s =
      if v.toNat < 2 ^ fieldWidth f then .next (s.answer (.overridden (setField f h v)))
      else .next (s.answer .illegal) := by
  rw [exec_withField]
  split
  next hv => exact overrideField_of_fits h s (valueFits_iff.mpr hv)
  next hv => exact overrideField_of_wide h s (valueFits_eq_false_iff.mpr (Nat.not_lt.mp hv))

/-- What WITH does to a field of one bit: of the two values that fit, 1 is true (R14, R143). -/
theorem exec_withFlag_eq_ite {f : HeaderField} {h : HeaderRecord} {v : Value} {withFlag : Bool → HeaderRecord}
    (hwidth : fieldWidth f = 1) (hset : setField f h v = withFlag (boolAt v 0)) (s : State) :
    exec (.withField f h v) s =
      if v.toNat < 2 then .next (s.answer (.overridden (withFlag (decide (v.toNat = 1)))))
      else .next (s.answer .illegal) := by
  rw [exec_withField_eq_ite, hwidth, hset]
  exact ite_congr rfl (fun hv => by rw [boolAt_zero_of_lt_two hv]) fun _ => rfl

/-- WITH.iv takes every value: none is wider than the field (R143). -/
theorem exec_withIv (h : HeaderRecord) (v : Value) (s : State) :
    exec (.withIv h v) s = .next (s.answer (.overridden { h with iv := v })) := by
  have hset : setField .iv h v = { h with iv := v } := by rw [setField, bits, BitVec.extractLsb'_eq_self]
  exact (exec_withField_eq_ite .iv h v s).trans ((if_pos v.isLt).trans (by rw [hset]))

/-- Settles O33: each WITH is `exec_withField_eq_ite` at its field, the low bits of a value being the number it is, and
the request's command byte is that of the field's WITH. -/
theorem withReplacesOneFieldOrAnswersIllegal : Obligations.WithReplacesOneFieldOrAnswersIllegal := by
  refine ⟨fun s h v => ⟨exec_withField_eq_ite .nextHdr h v s, exec_withField_eq_ite .hdrExtLen h v s,
    exec_withField_eq_ite .cryptOff h v s,
    exec_withFlag_eq_ite (f := .s) (withFlag := fun x => { h with s := x }) rfl rfl s,
    exec_withFlag_eq_ite (f := .d) (withFlag := fun x => { h with d := x }) rfl rfl s,
    exec_withField_eq_ite .version h v s,
    exec_withFlag_eq_ite (f := .vc) (withFlag := fun x => { h with vc := x }) rfl rfl s,
    exec_withFlag_eq_ite (f := .r) (withFlag := fun x => { h with r := x }) rfl rfl s,
    exec_withField_eq_ite .spi h v s, exec_withIv h v s⟩, fun s q f => ?_⟩
  exact step_of_cmd (decodeCmd_cmdByte (.withField f)) q s

/-- The version bits of a flags byte are the version's 4 low bits (R65, R100). -/
theorem pack8_version_bits (s d : Bool) (v : Byte) (vc r : Bool) :
    (pack8 s d v vc r).toNat / 4 % 16 = v.toNat % 16 := by
  have hversion := congrArg (fun fl => fl.version.toNat) (unpack8_pack8 s d v vc r)
  simpa [unpack8_eq] using hversion

/-- Settles O35: the value is the held version's number, byte 3 carries its low bits (`pack8_version_bits`), and a record
that is not well-formed is never the answer of DECODE (`decodeHeader_wf`). -/
theorem versionIsStoredAsGivenAndTruncatedAtEncode : Obligations.VersionIsStoredAsGivenAndTruncatedAtEncode := by
  intro s h v hv
  have hstored : (setField .version h v).version.toNat = v.toNat :=
    (BitVec.toNat_ofNat v.toNat 8).trans (Nat.mod_eq_of_lt hv)
  refine ⟨setField .version h v, encodeHeader (setField .version h v), ?_, hstored, exec_encode _, ?_, ?_⟩
  · exact (exec_withField_eq_ite .version h v s).trans (if_pos hv)
  · rw [encodeHeader_eq, ← hstored]
    exact pack8_version_bits ..
  · intro hwide t u hu hresponse
    obtain rfl : t.answer (.decoded (decodeHeader (encodeHeader (setField .version h v)))) = u := by
      simpa [exec_decode_of_le le_rfl] using hu
    have hrecord : decodeHeader (encodeHeader (setField .version h v)) = setField .version h v := by
      simpa using hresponse
    have hlow : (setField .version h v).version < 16#8 :=
      (wf_iff_version_lt _).mp (hrecord ▸ decodeHeader_wf _)
    have hlt : (setField .version h v).version.toNat < 16 := hlow
    omega

end Sys2Proof.Machine
end

section
/-! The build sequence (R149): the host carries the record through one WITH for each override, and each field ends with
the value of its last override. -/

namespace Sys2Proof.Machine

/-- The number a field of a record holds, a flag's as its bit (R14). -/
def fieldNat (f : HeaderField) (h : HeaderRecord) : Nat :=
  match f with
  | .nextHdr => h.nextHdr.toNat
  | .hdrExtLen => h.hdrExtLen.toNat
  | .cryptOff => h.cryptOff.toNat
  | .s => h.s.toNat
  | .d => h.d.toNat
  | .version => h.version.toNat
  | .vc => h.vc.toNat
  | .r => h.r.toNat
  | .spi => h.spi.toNat
  | .iv => h.iv.toNat

/-- The record with each override's field replaced, in order: what the host carries through the WITHs (R149). -/
def overridden (h : HeaderRecord) (overrides : List (HeaderField × Value)) : HeaderRecord :=
  overrides.foldl (fun h o => setField o.1 h o.2) h

/-- The low bits of a value below `2 ^ len` are the value. -/
theorem toNat_bits_zero {v : Value} {len : Nat} (hv : v.toNat < 2 ^ len) : (bits v 0 len).toNat = v.toNat :=
  (BitVec.toNat_ofNat v.toNat len).trans (Nat.mod_eq_of_lt hv)

/-- The bit of a one-bit value is the value. -/
theorem toNat_boolAt_zero {v : Value} (hv : v.toNat < 2) : (boolAt v 0).toNat = v.toNat := by
  rw [boolAt_zero_of_lt_two hv]
  obtain hzero | hone : v.toNat = 0 ∨ v.toNat = 1 := by omega
  · rw [hzero]; rfl
  · rw [hone]; rfl

/-- A field replaced by a value that fits holds that value (R143). -/
theorem fieldNat_setField_self {f : HeaderField} {v : Value} (h : HeaderRecord) (hv : valueFits f v = true) :
    fieldNat f (setField f h v) = v.toNat := by
  rw [valueFits_iff] at hv
  cases f with
  | s | d | vc | r => exact toNat_boolAt_zero hv
  | _ => exact toNat_bits_zero hv

/-- Replacing a field leaves the nine others (R142). -/
theorem fieldNat_setField_of_ne {f g : HeaderField} (hne : f ≠ g) (h : HeaderRecord) (v : Value) :
    fieldNat g (setField f h v) = fieldNat g h := by
  cases f <;> cases g <;> simp [fieldNat, setField] at hne ⊢

/-- The last override of a field is in the tail, or else is the head. -/
theorem lastOverride_cons (f : HeaderField) (o : HeaderField × Value) (rest : List (HeaderField × Value)) :
    lastOverride f (o :: rest) = (lastOverride f rest).or (if o.1 = f then some o.2 else none) := by
  by_cases ho : o.1 = f <;> simp [lastOverride, List.find?_append, ho]

/-- R149: after the overrides each field holds the value of its last override, or what it held. -/
theorem fieldNat_overridden {overrides : List (HeaderField × Value)} (hfits : ∀ o ∈ overrides, valueFits o.1 o.2 = true)
    (h : HeaderRecord) (f : HeaderField) :
    fieldNat f (overridden h overrides) =
      ((lastOverride f overrides).map BitVec.toNat).getD (fieldNat f h) := by
  induction overrides generalizing h with
  | nil => rfl
  | cons o rest ih =>
    obtain ⟨ho, hrest⟩ := List.forall_mem_cons.mp hfits
    have htail := ih hrest (setField o.1 h o.2)
    rw [lastOverride_cons]
    refine htail.trans ?_
    cases lastOverride f rest with
    | some v => rfl
    | none =>
      by_cases hf : o.1 = f
      · subst hf
        simpa using fieldNat_setField_self h ho
      · simpa [hf] using fieldNat_setField_of_ne hf h o.2

/-- The host reads the record of the response its request gets. -/
theorem ask_of_exec {i : Instr} {s : State} {a : Response} {h : HeaderRecord} (hexec : exec i s = .next (s.answer a))
    (hrec : a.recOut = some h) : ask i s = some (h, s.answer a) := by
  simp [ask, hexec, hrec]

/-- Asking for a WITH whose value fits succeeds with the field replaced. -/
theorem ask_withField {f : HeaderField} {v : Value} (h : HeaderRecord) (s : State) (hv : valueFits f v = true) :
    ask (.withField f h v) s = some (setField f h v, s.answer (.overridden (setField f h v))) :=
  ask_of_exec ((exec_withField f h v s).trans (overrideField_of_fits h s hv)) rfl

/-- WITHs whose values fit all succeed, and the host ends with the record overridden. -/
theorem askOverrides_of_fits {overrides : List (HeaderField × Value)}
    (hfits : ∀ o ∈ overrides, valueFits o.1 o.2 = true) (h : HeaderRecord) (s : State) :
    ∃ t : State, askOverrides overrides h s = some (overridden h overrides, t) := by
  induction overrides generalizing h s with
  | nil => exact ⟨s, rfl⟩
  | cons o rest ih =>
    obtain ⟨ho, hrest⟩ := List.forall_mem_cons.mp hfits
    obtain ⟨t, ht⟩ := ih hrest (setField o.1 h o.2) (s.answer (.overridden (setField o.1 h o.2)))
    exact ⟨t, by rw [askOverrides, ask_withField h s ho]; exact ht⟩

/-- R149: a build whose values fit succeeds, with the default record overridden. -/
theorem askBuild_of_fits {overrides : List (HeaderField × Value)}
    (hfits : ∀ o ∈ overrides, valueFits o.1 o.2 = true) (s : State) :
    ∃ t : State, askBuild overrides s = some (overridden defaultRecord overrides, t) := by
  obtain ⟨t, ht⟩ := askOverrides_of_fits hfits defaultRecord (s.answer (.defaulted defaultRecord))
  refine ⟨t.answer (.built (overridden defaultRecord overrides)), ?_⟩
  rw [askBuild, ask_of_exec (exec_default s) rfl]
  simp only [ht]
  exact ask_of_exec (exec_build _ t) rfl

/-- Settles O38: the record is the default one overridden (`askBuild_of_fits`), each field of which is
`fieldNat_overridden`. -/
theorem buildSequenceGivesDefaultsWithLastOverrides : Obligations.BuildSequenceGivesDefaultsWithLastOverrides := by
  intro overrides s hfits
  obtain ⟨t, ht⟩ := askBuild_of_fits hfits s
  have hfield := fieldNat_overridden hfits defaultRecord
  exact ⟨_, t, ht, hfield .nextHdr, hfield .hdrExtLen, hfield .cryptOff, hfield .s, hfield .d, hfield .version,
    hfield .vc, hfield .r, hfield .spi, hfield .iv⟩

/-- Settles O32: the build without overrides ends with the default record, whose wire header is the default vector. -/
theorem defaultBuildEncodesToTheDefaultVector : Obligations.DefaultBuildEncodesToTheDefaultVector := by
  intro s
  obtain ⟨t, ht⟩ := askBuild_of_fits (overrides := []) (by simp) s
  refine ⟨defaultRecord, t, ht, ?_, rfl⟩
  rw [exec_encode, encodeHeader_defaultRecord, State.answer]

end Sys2Proof.Machine
end

section
/-! The command byte is the operation's own: what `decodeCmd` takes for an operation is its `cmdByte` (R60 to R63). -/

namespace Sys2Proof

/-- A byte is its bit 7, its fsel and its op (R60). -/
theorem byte_eq_of_fields {c c' : Byte} (hbit : c.getLsbD 7 = c'.getLsbD 7)
    (hsel : c.extractLsb' 3 4 = c'.extractLsb' 3 4) (hop : c.extractLsb' 0 3 = c'.extractLsb' 0 3) : c = c' := by
  apply BitVec.eq_of_getLsbD_eq
  intro i hi
  obtain hlow | ⟨hge, hlt⟩ | rfl : i < 3 ∨ (3 ≤ i ∧ i < 7) ∨ i = 7 := by omega
  · simpa [hlow] using congrArg (fun b => b.getLsbD i) hop
  · simpa [show i - 3 < 4 by omega, Nat.add_sub_cancel' hge] using congrArg (fun b => b.getLsbD (i - 3)) hsel
  · exact hbit

/-- An operation has one command byte: a byte that decodes to it has the fields of its `cmdByte`. -/
theorem decodeCmd_eq_ok_iff {c : Byte} {o : Op} : decodeCmd c = .ok o ↔ c = o.cmdByte := by
  refine ⟨fun h => ?_, fun h => h ▸ decodeCmd_cmdByte o⟩
  obtain ⟨hbit, hcode, hsel⟩ := fields_of_decodeCmd_ok h
  obtain ⟨hbit', hcode', hsel'⟩ := fields_of_decodeCmd_ok (decodeCmd_cmdByte o)
  exact byte_eq_of_fields (hbit.trans hbit'.symm) (BitVec.eq_of_toNat_eq (hsel.symm.trans hsel'))
    (BitVec.eq_of_toNat_eq (hcode.symm.trans hcode'))

end Sys2Proof
end

section
/-! The causes of the statuses (R24, R160, R162, R163): which instructions are answered with an error, and which requests
those are. -/

namespace Sys2Proof

/-- A WITH is well-formed when its value fits the field (R67). -/
theorem wf_withField (f : HeaderField) (h : HeaderRecord) (v : Value) :
    (Instr.withField f h v).wf = Machine.valueFits f v := by
  cases f <;> rfl

/-- No operation but WITH has an illegal operand (R69, R163). -/
theorem op_eq_withField_of_not_wf {i : Instr} (h : i.wf = false) : ∃ f, i.op = .withField f := by
  cases i with
  | pack | unpack | encode | decode | default | build => cases h
  | _ => exact ⟨_, rfl⟩

/-- DECODE of a buffer shorter than the wire header (R124). -/
def Instr.ShortDecode (i : Instr) : Prop := ∃ n b, i = .decode n b ∧ n < 16

/-- Only DECODE can be short. -/
theorem Instr.ShortDecode.op_eq {i : Instr} (h : i.ShortDecode) : i.op = .decode := by
  obtain ⟨n, b, rfl, -⟩ := h
  rfl

/-- A DECODE is short when its length is. -/
theorem shortDecode_decode_iff {n : Nat} {b : Wire} : (Instr.decode n b).ShortDecode ↔ n < 16 :=
  ⟨fun ⟨_, _, h, hn⟩ => by cases h; exact hn, fun hn => ⟨n, b, rfl, hn⟩⟩

/-- Assembly gives each operation its own instruction. -/
theorem op_assemble (q : Request) (o : Op) : (assemble q o).op = o := by
  cases o with
  | withField f => cases f <;> rfl
  | _ => rfl

/-- A request assembles to an ill-formed instruction exactly for a WITH value too wide (R67). -/
theorem wf_assemble_eq_false_iff {q : Request} {o : Op} :
    (assemble q o).wf = false ↔ ∃ f, o = .withField f ∧ 2 ^ Machine.fieldWidth f ≤ q.valIn.toNat := by
  constructor
  · intro h
    obtain ⟨f, hf⟩ := op_eq_withField_of_not_wf h
    obtain rfl : o = .withField f := (op_assemble q o).symm.trans hf
    rw [assemble, wf_withField] at h
    exact ⟨f, rfl, Machine.valueFits_eq_false_iff.mp h⟩
  · rintro ⟨f, rfl, hwide⟩
    rw [assemble, wf_withField]
    exact Machine.valueFits_eq_false_iff.mpr hwide

/-- A request assembles to a short DECODE exactly for that operation with `buf_len` below 16. -/
theorem shortDecode_assemble_iff {q : Request} {o : Op} :
    (assemble q o).ShortDecode ↔ o = .decode ∧ q.bufLen < 16 := by
  constructor
  · intro h
    obtain rfl : o = .decode := (op_assemble q o).symm.trans h.op_eq
    exact ⟨rfl, shortDecode_decode_iff.mp h⟩
  · rintro ⟨rfl, hn⟩
    exact shortDecode_decode_iff.mpr hn

end Sys2Proof

namespace Sys2Proof.Machine

/-- The codes are those of R24, each its own status's, and 3 is none's. -/
theorem Status.code_eq_iff (st : Status) :
    (st.code = 1#2 ↔ st = .tooShort) ∧ (st.code = 2#2 ↔ st = .illegal) ∧
    (st.code = 0#2 ↔ st ≠ .tooShort ∧ st ≠ .illegal) ∧ st.code ≠ 3#2 := by
  cases st <;> decide

/-- A status that is neither error is OK. -/
theorem Status.eq_ok {st : Status} (hshort : st ≠ .tooShort) (hillegal : st ≠ .illegal) : st = .ok := by
  cases st with
  | ok => rfl
  | tooShort => exact absurd rfl hshort
  | illegal => exact absurd rfl hillegal

/-- What status a response has, given the two causes of an error: TOO_SHORT exactly from the one, ILLEGAL exactly from the
other (R160). -/
def StatusFrom (short illegal : Prop) (a : Response) : Prop :=
  (a.status = .tooShort ↔ short) ∧ (a.status = .illegal ↔ illegal)

/-- A response with status OK, when neither cause holds. -/
theorem statusFrom_of_ok {short illegal : Prop} {a : Response} (ha : a.status = .ok) (hshort : ¬ short)
    (hillegal : ¬ illegal) : StatusFrom short illegal a := by
  simp [StatusFrom, ha, hshort, hillegal]

/-- TOO_SHORT, when its cause holds and that of ILLEGAL does not. -/
theorem statusFrom_tooShort {short illegal : Prop} (hshort : short) (hillegal : ¬ illegal) :
    StatusFrom short illegal .tooShort := by
  simp [StatusFrom, Response.status, hshort, hillegal]

/-- ILLEGAL, when its cause holds and that of TOO_SHORT does not. -/
theorem statusFrom_illegal {short illegal : Prop} (hshort : ¬ short) (hillegal : illegal) :
    StatusFrom short illegal .illegal := by
  simp [StatusFrom, Response.status, hshort, hillegal]

/-- An override is answered ILLEGAL exactly for a value that does not fit, and never TOO_SHORT (R143, R162). -/
theorem overrideField_answers_statusFrom (f : HeaderField) (h : HeaderRecord) (v : Value) {short : Prop}
    (hshort : ¬ short) :
    ∃ a : Response, (∀ s : State, overrideField f h v s = .next (s.answer a)) ∧
      StatusFrom short (valueFits f v = false) a := by
  cases hv : valueFits f v with
  | false => exact ⟨.illegal, fun s => overrideField_of_wide h s hv, statusFrom_illegal hshort rfl⟩
  | true => exact ⟨_, fun s => overrideField_of_fits h s hv, statusFrom_of_ok rfl hshort Bool.noConfusion⟩

/-- The status of each instruction's response: TOO_SHORT for a short DECODE, ILLEGAL for an operand its encoding does not
admit, and no other error (R160, R162, R163). -/
theorem exec_answers_statusFrom (i : Instr) :
    ∃ a : Response, (∀ s : State, exec i s = .next (s.answer a)) ∧ StatusFrom i.ShortDecode (i.wf = false) a := by
  cases i with
  | decode n b =>
    by_cases hn : n < 16
    · exact ⟨.tooShort, exec_decode_of_lt hn b, statusFrom_tooShort (shortDecode_decode_iff.mpr hn) Bool.noConfusion⟩
    · exact ⟨_, exec_decode_of_le (Nat.not_lt.mp hn) b,
        statusFrom_of_ok rfl (mt shortDecode_decode_iff.mp hn) Bool.noConfusion⟩
  | withNextHdr h v | withHdrExtLen h v | withCryptOff h v | withS h v | withD h v | withVersion h v
  | withVc h v | withR h v | withSpi h v | withIv h v =>
    exact overrideField_answers_statusFrom _ h v fun hshort => Op.noConfusion hshort.op_eq
  | _ => exact ⟨_, fun _ => rfl, statusFrom_of_ok rfl (fun hshort => Op.noConfusion hshort.op_eq) Bool.noConfusion⟩

/-- The status of each request's response: TOO_SHORT for DECODE with `buf_len` below 16, ILLEGAL for a reserved command
byte or a WITH value too wide, and no other error (R160). -/
theorem step_answers_statusFrom (q : Request) :
    ∃ a : Response, (∀ s : State, step { s with inFlight := some q } = .next (s.answer a)) ∧
      StatusFrom (decodeCmd q.cmd = .ok .decode ∧ q.bufLen < 16)
        ((∃ e, decodeCmd q.cmd = .error e) ∨ WideValue q) a := by
  unfold WideValue
  cases hcmd : decodeCmd q.cmd with
  | error e => exact ⟨.illegal, step_of_reserved (decode_of_error hcmd), statusFrom_illegal (by simp) (.inl ⟨e, rfl⟩)⟩
  | ok o =>
    obtain ⟨a, ha, hstatus⟩ := exec_answers_statusFrom (assemble q o)
    refine ⟨a, fun s => (step_eq_exec (decode_of_ok hcmd) s).trans (ha s), ?_⟩
    simpa [shortDecode_assemble_iff, wf_assemble_eq_false_iff] using hstatus

/-- Settles O40: each code is its status's (`Status.code_eq_iff`), whose cause `step_answers_statusFrom` gives; DECODE's
command byte is 0x03 alone. -/
theorem everyStatusHasItsCause : Obligations.EveryStatusHasItsCause := by
  intro q wide reserved
  have hdecode : decodeCmd q.cmd = .ok .decode ↔ q.cmd = 0x03#8 := decodeCmd_eq_ok_iff
  obtain ⟨a, ha, hshort, hillegal⟩ := step_answers_statusFrom q
  obtain ⟨hone, htwo, hzero, hthree⟩ := a.status.code_eq_iff
  rw [hdecode] at hshort
  exact ⟨a, ha, hone.trans hshort, htwo.trans hillegal, hzero.trans (and_congr hshort.not hillegal.not), hthree⟩

/-- Settles O41: the request with `buf_len` and value replaced has the same command byte, which says which of the three
checks is reached (R164). -/
theorem errorsAreReportedInOrder : Obligations.ErrorsAreReportedInOrder := by
  refine ⟨fun s q e hcmd n v => ?_, fun s q f hcmd n v hwide => ?_, fun s q hcmd n v hn => ?_⟩
  · exact step_of_reserved (q := { q with bufLen := n, valIn := v }) (decode_of_error hcmd) s
  · exact step_of_wideValue (q := { q with bufLen := n, valIn := v }) ⟨f, hcmd, hwide⟩ s
  · exact (step_eq_exec (q := { q with bufLen := n, valIn := v }) (decode_of_ok hcmd) s).trans
      (exec_decode_of_lt hn q.bufIn s)

/-- Settles O42: a status other than OK has its cause (`exec_answers_statusFrom`): TOO_SHORT comes only from
a short DECODE, and ILLEGAL only from a WITH that is not well-formed. -/
theorem noFieldValueIsAnError : Obligations.NoFieldValueIsAnError := by
  intro i s
  obtain ⟨a, ha, hshort, hillegal⟩ := exec_answers_statusFrom i
  have not_tooShort (hop : i.op ≠ .decode) : a.status ≠ .tooShort := fun h => hop (hshort.mp h).op_eq
  have not_illegal (hwf : i.wf = true) : a.status ≠ .illegal := fun h => by simp [hillegal.mp h] at hwf
  refine ⟨a, ha s, fun hop => ?_, ?_, ?_, ?_⟩
  · refine Status.eq_ok (not_tooShort fun h => by simp [h] at hop) fun h => ?_
    obtain ⟨f, hf⟩ := op_eq_withField_of_not_wf (hillegal.mp h)
    simp [hf] at hop
  · rintro ⟨n, b, rfl, hn⟩
    exact Status.eq_ok (fun h => (shortDecode_decode_iff.mp (hshort.mp h)).not_ge hn) (not_illegal rfl)
  · rintro ⟨f, hf⟩
    by_cases h : a.status = .illegal
    · exact .inr h
    · exact .inl (Status.eq_ok (not_tooShort (by simp [hf])) h)
  · rintro ⟨f, hf⟩ hwf
    exact Status.eq_ok (not_tooShort (by simp [hf])) (not_illegal hwf)

end Sys2Proof.Machine
end

section
/-! Whole requests (R25, R60 to R63): assembly and encoding undo each other, so a request and the instruction it carries
determine each other up to the idle fields; and the table's rows are the command bytes of the operations. -/

namespace Sys2Proof

/-- A request that decodes has a legal command byte, whose operation it assembles. -/
theorem exists_op_of_decode_ok {q : Request} {i : Instr} (h : decode q = .ok i) :
    ∃ o, q.cmd = o.cmdByte ∧ i = assemble q o := by
  cases hcmd : decodeCmd q.cmd with
  | error e => simp [decode_of_error hcmd] at h
  | ok o => exact ⟨o, decodeCmd_eq_ok_iff.mp hcmd, by simpa [decode_of_ok hcmd] using h.symm⟩

/-- Encoding an instruction over the request it was assembled from changes only the command byte (R25). -/
theorem encode_assemble (q : Request) (o : Op) : encode (assemble q o) q = { q with cmd := o.cmdByte } := by
  cases o with
  | withField f => cases f <;> rfl
  | _ => rfl

/-- A request is the encoding of the instruction it decodes to, its other fields those it has (R25, R63). -/
theorem encode_of_decode_ok {q : Request} {i : Instr} (h : decode q = .ok i) : encode i q = q := by
  obtain ⟨o, hcmd, rfl⟩ := exists_op_of_decode_ok h
  rw [encode_assemble, ← hcmd]

/-- Settles O5: `decode_encode` one way, which also rules out that a rejected request is an encoding, and
`encode_of_decode_ok` the other. -/
theorem requestsDecodeToWhatTheyEncode : Obligations.RequestsDecodeToWhatTheyEncode := by
  refine ⟨decode_encode, fun q i => encode_of_decode_ok, ?_⟩
  rintro q e herror i idle rfl
  simp [decode_encode] at herror

/-- opcode_table.json: the row of an operation is its command byte, and each operation has one. -/
theorem mem_opcodeTable_iff {c : Byte} {o : Op} : (c, o) ∈ opcodeTable ↔ c = o.cmdByte := by
  constructor
  · have hrow : ∀ row ∈ opcodeTable, row.1 = row.2.cmdByte := by decide
    exact hrow (c, o)
  · rintro rfl
    cases o with
    | withField f => cases f <;> decide
    | _ => decide

/-- Settles O3: a row of the table and an answer of the decoder both say that the byte is the operation's `cmdByte`. -/
theorem opcodeTableAgreesWithDecoder : Obligations.OpcodeTableAgreesWithDecoder := by
  intro c o
  rw [decodeCmd_eq_ok_iff, mem_opcodeTable_iff]

/-- Settles O4: each bit string is the command byte of its operation. -/
theorem commandBytesInBitsDecode : Obligations.CommandBytesInBitsDecode :=
  ⟨decodeCmd_cmdByte .pack, decodeCmd_cmdByte .unpack, decodeCmd_cmdByte .encode, decodeCmd_cmdByte .decode,
    decodeCmd_cmdByte .default, decodeCmd_cmdByte .build, decodeCmd_cmdByte (.withField .version),
    decodeCmd_cmdByte (.withField .iv)⟩

end Sys2Proof
end

section
/-! The response port (R125, R140; log 3): whatever the port held, a step leaves on it no response or a sound one. -/

namespace Sys2Proof.Machine

/-- What `State.PortSound` asks of a response: a decoded record is well-formed (R125), and DEFAULT's is the constant
(R140). -/
def Response.Sound : Response → Prop
  | .decoded h => h.wf = true
  | .defaulted h => h = defaultRecord
  | _ => True

/-- A port without a valid response is sound. -/
theorem State.portSound_of_no_response {s : State} (h : s.response = none) : s.PortSound := by
  simp [State.PortSound, h]

/-- The port is sound after an answer that is: nothing is in flight any more. -/
theorem State.portSound_answer {a : Response} (ha : a.Sound) (s : State) : (s.answer a).PortSound := by
  refine ⟨fun hflight => absurd rfl hflight, fun h hport => ?_, fun h hport => ?_⟩
  · obtain rfl := Option.some.inj hport
    exact (wf_iff_version_lt h).mp ha
  · obtain rfl := Option.some.inj hport
    exact ha

/-- Every instruction answers soundly: DECODE by the codec, DEFAULT by its constant, and no other operation gives a
response of those two kinds. -/
theorem exec_answers_sound (i : Instr) : ∃ a : Response, (∀ s : State, exec i s = .next (s.answer a)) ∧ a.Sound := by
  have hwith (f : HeaderField) (h : HeaderRecord) (v : Value) :
      ∃ a : Response, (∀ s : State, overrideField f h v s = .next (s.answer a)) ∧ a.Sound := by
    cases hv : valueFits f v with
    | true => exact ⟨_, fun s => overrideField_of_fits h s hv, trivial⟩
    | false => exact ⟨_, fun s => overrideField_of_wide h s hv, trivial⟩
  cases i with
  | decode n b =>
    obtain hn | hn := Nat.lt_or_ge n 16
    · exact ⟨_, exec_decode_of_lt hn b, trivial⟩
    · exact ⟨_, exec_decode_of_le hn b, decodeHeader_wf b⟩
  | default => exact ⟨_, exec_default, rfl⟩
  | withNextHdr h v | withHdrExtLen h v | withCryptOff h v | withS h v | withD h v | withVersion h v
  | withVc h v | withR h v | withSpi h v | withIv h v => exact hwith _ h v
  | _ => exact ⟨_, fun _ => rfl, trivial⟩

/-- A step with a request to answer answers it soundly: a reserved command byte is ILLEGAL. -/
theorem step_answers_sound {s : State} {q : Request} (hq : s.accept.inFlight = some q) :
    ∃ a : Response, step s = .next (s.accept.answer a) ∧ a.Sound := by
  cases hd : decode q with
  | ok i =>
    obtain ⟨a, hexec, ha⟩ := exec_answers_sound i
    exact ⟨a, (step_eq_exec_accept hq hd).trans (hexec s.accept), ha⟩
  | error e => exact ⟨.illegal, by simp [step, hq, hd, raise_eq, Cause.response], trivial⟩

/-- A step leaves the port sound, whatever it held. -/
theorem portSound_of_step {s t : State} (h : step s = .next t) : t.PortSound := by
  cases hq : s.accept.inFlight with
  | none =>
    obtain rfl : s.accept.idle = t := by simpa [step_idle hq] using h
    exact State.portSound_of_no_response rfl
  | some q =>
    obtain ⟨a, hstep, ha⟩ := step_answers_sound hq
    obtain rfl : s.accept.answer a = t := by simpa [hstep] using h
    exact State.portSound_answer ha s.accept

/-- Settles O47: a step leaves a sound port even without the premise. -/
theorem stepKeepsResponsePortSound : Obligations.StepKeepsResponsePortSound :=
  fun _ _ _ => portSound_of_step

/-- Acceptance changes nothing, or clears the port (log 3). -/
theorem State.accept_eq_or_no_response (s : State) : s.accept = s ∨ s.accept.response = none := by
  cases hq : s.inFlight with
  | some q => exact .inl (State.accept_of_inFlight hq)
  | none =>
    cases hp : s.presented with
    | nil => exact .inl (State.accept_of_nothing hq hp)
    | cons q rest => exact .inr (by rw [State.accept_of_presented hq hp])

/-- Every event keeps the port sound. Presenting leaves the port and the request in flight, acceptance leaves the state
or clears the port, reset clears it. -/
theorem onEvent_keeps_portSound {e : Event} {s t : State} (hs : s.PortSound) (h : onEvent e s = .next t) :
    t.PortSound := by
  obtain ⟨n, q, -, rfl⟩ | ⟨-, rfl⟩ | ⟨-, hstep⟩ | ⟨-, rfl⟩ := onEvent_cases h
  · exact hs
  · obtain haccept | haccept := s.accept_eq_or_no_response
    · rwa [haccept]
    · exact State.portSound_of_no_response haccept
  · exact portSound_of_step hstep
  · exact State.portSound_of_no_response rfl

/-- A list of events that takes a next state takes one after its first event. -/
theorem onEvents_cons_eq_next {e : Event} {es : List Event} {s t : State} (h : onEvents (e :: es) s = .next t) :
    ∃ u : State, onEvent e s = .next u ∧ onEvents es u = .next t := by
  cases hu : onEvent e s with
  | next u => exact ⟨u, rfl, by simpa [onEvents, hu] using h⟩
  | fault f | refused r => simp [onEvents, hu] at h

/-- Settles O48: by induction on the events, each of which keeps the port sound. -/
theorem eventsKeepResponsePortSound : Obligations.EventsKeepResponsePortSound := by
  intro es
  induction es with
  | nil =>
    intro s t hs h
    obtain rfl : s = t := by simpa [onEvents] using h
    exact hs
  | cons e es ih =>
    intro s t hs h
    obtain ⟨u, hu, ht⟩ := onEvents_cons_eq_next h
    exact ih u t (onEvent_keeps_portSound hs hu) ht

/-- Settles O46: at reset no response is valid. -/
theorem responsePortSoundAtReset : Obligations.ResponsePortSoundAtReset :=
  State.portSound_of_no_response rfl

end Sys2Proof.Machine
end

section
/-! Runs (R50, R187). What a step does is settled by the unanswered requests, the one in flight first: it answers the
first of them with that request's own response, or idles when there is none (logs 2, 3 and 10). -/

namespace Sys2Proof.Machine

/-- Every request is answered when it is the first after reset. -/
theorem exists_firstResponse (q : Request) : ∃ a : Response, firstResponse q = some a := by
  obtain ⟨a, -, -, hfirst⟩ := request_answered q
  exact ⟨a, hfirst⟩

/-- A step answers the first unanswered request with the response it gets first after reset, and leaves the others waiting
and the host's debts as they are. -/
theorem step_of_unanswered_cons {s : State} {q : Request} {rest : List Request} {a : Response}
    (hs : s.unanswered = q :: rest) (ha : firstResponse q = some a) :
    step s = .next { s with presented := rest, inFlight := none, response := some a } := by
  obtain ⟨a', hinFlight, hwaiting, ha'⟩ := request_answered q
  obtain rfl : a' = a := Option.some.inj (ha'.symm.trans ha)
  obtain ⟨presented, inFlight, response, abandoned⟩ := s
  cases inFlight with
  | some p =>
    obtain ⟨rfl, rfl⟩ := List.cons.inj hs
    exact hinFlight ⟨presented, none, response, abandoned⟩
  | none =>
    obtain rfl : presented = q :: rest := hs
    exact hwaiting ⟨rest, none, response, abandoned⟩

/-- With no request unanswered a step clears the port and changes nothing else (log 3). -/
theorem step_of_unanswered_nil {s : State} (hs : s.unanswered = []) : step s = .next { s with response := none } := by
  obtain ⟨hinFlight, hpresented⟩ := List.append_eq_nil_iff.mp hs
  have hacc : s.accept = s := State.accept_of_nothing (Option.toList_eq_nil_iff.mp hinFlight) hpresented
  have hnone : s.accept.inFlight = none := by rw [hacc, Option.toList_eq_nil_iff.mp hinFlight]
  rw [step_idle hnone, hacc, State.idle]

/-- Settles O7: with nothing in flight and nothing waiting no request is unanswered. -/
theorem idleStepReturnsNoResponse : Obligations.IdleStepReturnsNoResponse :=
  fun _ => step_of_unanswered_nil rfl

/-- The responses of a run are those of its first unanswered requests, in order, whatever the state is otherwise. -/
theorem responses_eq (n : Nat) (s : State) : responses n s = (s.unanswered.take n).filterMap firstResponse := by
  induction n generalizing s with
  | zero => simp [responses]
  | succ n ih =>
    cases hs : s.unanswered with
    | nil =>
      rw [responses_succ_of_step (step_of_unanswered_nil hs), ih]
      have hrest : State.unanswered { s with response := none } = [] := hs
      simp [hrest]
    | cons q rest =>
      obtain ⟨a, ha⟩ := exists_firstResponse q
      rw [responses_succ_of_step (step_of_unanswered_cons hs ha), ih]
      simp [State.unanswered, ha]

/-- Settles O12: the responses are the unanswered requests mapped by one function (`responses_eq`), so they come in the
order of the list, and a permutation of the requests permutes the pairs. -/
theorem requestsAnsweredInOrderAndInAnyOrderAlike : Obligations.RequestsAnsweredInOrderAndInAnyOrderAlike := by
  choose responseOf hresponseOf using exists_firstResponse
  have hresponses (n : Nat) (s : State) : responses n s = (s.unanswered.take n).map responseOf := by
    rw [responses_eq, ← List.filterMap_eq_map]
    exact List.filterMap_congr fun q _ => hresponseOf q
  constructor
  · intro s n _
    rw [hresponses, List.map_map]
    exact List.map_congr_left fun q _ => (hresponseOf q).symm
  · intro s qs qs' hperm
    have hpairs (qs : List Request) : qs.zip (responses qs.length { s with inFlight := none, presented := qs }) =
        qs.map fun q => (q, responseOf q) := by
      rw [hresponses, List.map_prod_left_eq_zip]
      simp [State.unanswered]
    rw [hpairs, hpairs]
    exact hperm.map _

/-- A run of one step more goes on from the state the first step leaves. -/
theorem run_succ_of_step {s t : State} (h : step s = .next t) (n : Nat) :
    Host.Core.run Sys2Proof.core (n + 1) s = Host.Core.run Sys2Proof.core n t := by
  have hcore : Sys2Proof.core.step s = .next t := h
  simp only [Host.Core.run, hcore]

/-- As many steps as there are unanswered requests answer them all and leave the host's debts as they are. -/
theorem run_answers_all {n : Nat} {s : State} (hn : s.unanswered.length = n) :
    ∃ t : State, Host.Core.run Sys2Proof.core n s = .next t ∧ t.unanswered = [] ∧ t.abandoned = s.abandoned := by
  induction n generalizing s with
  | zero => exact ⟨s, rfl, List.length_eq_zero_iff.mp hn, rfl⟩
  | succ n ih =>
    obtain ⟨q, rest, hs⟩ := List.exists_cons_of_length_eq_add_one hn
    obtain ⟨a, ha⟩ := exists_firstResponse q
    have hrest : rest.length = n := by simpa [hs] using hn
    obtain ⟨t, hrun, hall, howed⟩ := ih (s := { s with presented := rest, inFlight := none, response := some a }) hrest
    exact ⟨t, (run_succ_of_step (step_of_unanswered_cons hs ha) n).trans hrun, hall, howed⟩

/-- Settles O13: with every request answered, the run has ended exactly when nothing is owed. -/
theorem runEndsAfterOneStepPerRequest : Obligations.RunEndsAfterOneStepPerRequest := by
  intro s
  obtain ⟨t, hrun, hall, howed⟩ := run_answers_all (s := s) rfl
  exact ⟨t, hrun, hall, howed, by simp [State.finished, hall, howed]⟩

end Sys2Proof.Machine
end

section
/-! Nothing stops the block (R163, R166; logs 3, 4 and 14): every step and every event takes a next state. -/

namespace Sys2Proof.Machine

/-- A step takes a next state: it answers or idles. -/
theorem exists_step_next (s : State) : ∃ t : State, step s = .next t := by
  cases hs : s.unanswered with
  | nil => exact ⟨_, step_of_unanswered_nil hs⟩
  | cons q rest =>
    obtain ⟨a, ha⟩ := exists_firstResponse q
    exact ⟨_, step_of_unanswered_cons hs ha⟩

/-- An event takes a next state. -/
theorem exists_onEvent_next (e : Event) (s : State) : ∃ t : State, onEvent e s = .next t := by
  cases e with
  | serve => exact exists_step_next s
  | _ => exact ⟨_, rfl⟩

/-- A list of events takes a next state. -/
theorem exists_onEvents_next (es : List Event) (s : State) : ∃ t : State, onEvents es s = .next t := by
  induction es generalizing s with
  | nil => exact ⟨s, rfl⟩
  | cons e es ih =>
    obtain ⟨u, hu⟩ := exists_onEvent_next e s
    obtain ⟨t, ht⟩ := ih u
    exact ⟨t, by simpa [onEvents, hu] using ht⟩

/-- Settles O14: for instructions by `exec_answers`. -/
theorem nothingStopsTheBlock : Obligations.NothingStopsTheBlock := by
  refine ⟨exists_step_next, fun i s => ?_, exists_onEvents_next⟩
  obtain ⟨a, ha⟩ := exec_answers i
  exact ⟨_, ha s⟩

/-- Settles O15: the next state of an instruction is its answer, which `exec_answers` gives. -/
theorem instructionsChangeOnlyTheResponse : Obligations.InstructionsChangeOnlyTheResponse := by
  intro i s t ht
  obtain ⟨a, ha⟩ := exec_answers i
  obtain rfl : s.answer a = t := by simpa [ha s] using ht
  exact ⟨a, rfl⟩

end Sys2Proof.Machine
end

section
/-! Reset (R33, R180, R181; logs 2, 3, 5, 6 and 16): it takes the request in flight from the block to the host's debts,
and changes nothing that a response depends on. -/

namespace Sys2Proof.Machine

/-- Settles O43: by evaluation of the one state right after reset. -/
theorem resetStateHoldsNothing : Obligations.ResetStateHoldsNothing :=
  ⟨rfl, rfl, rfl, rfl⟩

/-- After a reset the block's unanswered requests are those that waited (R180; log 6). -/
theorem State.unanswered_assertReset (s : State) : s.assertReset.unanswered = s.presented := rfl

/-- A request presented first after a reset is the next answered, before those that waited, and is owed no more (R180,
R181; logs 2, 6 and 16). -/
theorem step_present_after_reset {q : Request} {a : Response} (ha : firstResponse q = some a) (s : State) :
    step (s.assertReset.present 0 q) = .next { s with
      inFlight := none, response := some a, abandoned := (s.abandoned ++ s.inFlight.toList).erase q } :=
  step_of_unanswered_cons rfl ha

/-- Settles O44: the request in flight is the first unanswered one, and the responses after the reset are those of the
requests that waited (`responses_eq`). -/
theorem resetAbandonsTheRequestInFlight : Obligations.ResetAbandonsTheRequestInFlight := by
  intro s q
  obtain ⟨a, ha⟩ := exists_firstResponse q
  have hsettled : ((s.abandoned ++ [q]).erase q).Perm s.abandoned := by
    simpa using (List.perm_append_singleton q s.abandoned).erase q
  refine ⟨a, step_of_unanswered_cons rfl ha, rfl, State.unanswered_assertReset _, rfl, by simp [State.finished],
    fun n => ?_, ⟨_, step_of_unanswered_nil rfl, rfl⟩, ⟨_, step_present_after_reset ha _, rfl, rfl, hsettled⟩⟩
  rw [responses_eq, responses_eq]
  rfl

/-- Settles O45: in flight at any state and first after any reset, the request gets its `firstResponse`. -/
theorem resetChangesNoResponse : Obligations.ResetChangesNoResponse := by
  intro q
  obtain ⟨a, ha⟩ := exists_firstResponse q
  exact ⟨a, fun s t => ⟨step_of_unanswered_cons rfl ha, _, step_present_after_reset ha t, rfl, rfl⟩⟩

end Sys2Proof.Machine
end

section
/-! WITH after WITH (R143): a record is the numbers its ten fields hold, so two records are compared field by field. -/

namespace Sys2Proof.Machine

/-- Records whose fields hold the same numbers are equal. -/
theorem record_eq_of_fieldNat_eq {h h' : HeaderRecord} (heq : ∀ f, fieldNat f h = fieldNat f h') : h = h' := by
  have hflag : ∀ x y : Bool, x.toNat = y.toNat → x = y := by decide
  cases h
  cases h'
  simp only [HeaderRecord.mk.injEq]
  exact ⟨BitVec.eq_of_toNat_eq (heq .nextHdr), BitVec.eq_of_toNat_eq (heq .hdrExtLen),
    BitVec.eq_of_toNat_eq (heq .cryptOff), hflag _ _ (heq .s), hflag _ _ (heq .d),
    BitVec.eq_of_toNat_eq (heq .version), hflag _ _ (heq .vc), hflag _ _ (heq .r),
    BitVec.eq_of_toNat_eq (heq .spi), BitVec.eq_of_toNat_eq (heq .iv)⟩

/-- A field holds a number below `2 ^ W` (R62). -/
theorem fieldNat_lt (f : HeaderField) (h : HeaderRecord) : fieldNat f h < 2 ^ fieldWidth f := by
  cases f with
  | s | d | vc | r => exact Bool.toNat_lt _
  | _ => exact BitVec.isLt _

/-- What each field holds after an override whose value fits (R143). -/
theorem fieldNat_setField {f : HeaderField} {v : Value} (hv : valueFits f v = true) (h : HeaderRecord)
    (k : HeaderField) : fieldNat k (setField f h v) = if f = k then v.toNat else fieldNat k h := by
  split
  next hf => exact hf ▸ fieldNat_setField_self h hv
  next hf => exact fieldNat_setField_of_ne hf h v

/-- Overrides of different fields commute: a field is overridden by at most one of them. -/
theorem setField_comm {f g : HeaderField} (hne : f ≠ g) {v w : Value} (hv : valueFits f v = true)
    (hw : valueFits g w = true) (h : HeaderRecord) :
    setField g (setField f h v) w = setField f (setField g h w) v := by
  refine record_eq_of_fieldNat_eq fun k => ?_
  simp only [fieldNat_setField hv, fieldNat_setField hw]
  by_cases hf : f = k
  · subst hf
    simp [hne.symm]
  · simp [hf]

/-- Of two overrides of one field the later wins. -/
theorem setField_setField {f : HeaderField} {v w : Value} (hv : valueFits f v = true) (hw : valueFits f w = true)
    (h : HeaderRecord) : setField f (setField f h v) w = setField f h w := by
  refine record_eq_of_fieldNat_eq fun k => ?_
  simp only [fieldNat_setField hv, fieldNat_setField hw]
  split <;> rfl

/-- WITH of the value a field already holds fits and answers the record unchanged. -/
theorem exec_withField_of_held {f : HeaderField} {h : HeaderRecord} {v : Value} (hheld : v.toNat = fieldNat f h)
    (s : State) : exec (.withField f h v) s = .next (s.answer (.overridden h)) := by
  have hlt : v.toNat < 2 ^ fieldWidth f := hheld ▸ fieldNat_lt f h
  have hset : setField f h v = h := by
    refine record_eq_of_fieldNat_eq fun k => ?_
    rw [fieldNat_setField (valueFits_iff.mpr hlt)]
    split
    next hf => rw [hheld, hf]
    next => rfl
  rw [exec_withField_eq_ite, if_pos hlt, hset]

/-- The host's two WITHs with values that fit succeed, the second on the record of the first. -/
theorem askOverrides_pair {f g : HeaderField} {v w : Value} (hv : valueFits f v = true) (hw : valueFits g w = true)
    (h : HeaderRecord) (s : State) :
    ∃ t : State, askOverrides [(f, v), (g, w)] h s = some (setField g (setField f h v) w, t) :=
  askOverrides_of_fits (by simp [hv, hw]) h s

/-- Settles O34: the records compared are those of `setField_comm` and `setField_setField`, and each value of the list is
the number its field holds. -/
theorem overridesCommuteAndTheLaterWins : Obligations.OverridesCommuteAndTheLaterWins := by
  refine ⟨fun s h f g v w hv hw => ⟨fun hne => ?_, ?_⟩, fun s h o ho => ?_⟩
  · obtain ⟨t, ht⟩ := askOverrides_pair hv hw h s
    obtain ⟨t', ht'⟩ := askOverrides_pair hw hv h s
    rw [← setField_comm hne hv hw] at ht'
    exact ⟨_, t, t', ht, ht'⟩
  · rintro rfl
    obtain ⟨t, ht⟩ := askOverrides_pair hv hw h s
    obtain ⟨t', ht'⟩ := askOverrides_of_fits (overrides := [(f, w)]) (by simp [hw]) h s
    rw [setField_setField hv hw] at ht
    exact ⟨_, t, t', ht, ht'⟩
  · have hheld : o.2.toNat = fieldNat o.1 h := by
      revert o
      simp [fieldNat, BitVec.toNat_setWidth_of_le, -BitVec.toNat_setWidth]
    exact exec_withField_of_held hheld s

/-- Settles O36: 0 fits the one bit of R, and bit 7 of byte 3 is R by the layout of the flags byte. -/
theorem reservedBitIsSentAsItIs : Obligations.ReservedBitIsSentAsItIs := by
  intro s h
  refine ⟨(exec_withField_eq_ite .r h 0 s).trans (if_pos (by decide)), encodeHeader h, exec_encode h s, ?_⟩
  have hflags : (encodeHeader h)[3] = pack8 h.s h.d h.version h.vc h.r := by
    rw [encodeHeader_eq]
    rfl
  rw [hflags, BitVec.testBit_toNat, getLsbD_pack8 _ _ _ _ _ (by decide)]
  rfl

end Sys2Proof.Machine
end

section
/-! Several blocks (R172; logs 11 and 17). -/

namespace Sys2Proof.Machine

/-- An event at one block is its effect on that block's state, and the list of blocks is otherwise as it was. -/
theorem onSystemEvent_eq_modify {e : Event} {effect : State → State} (heffect : ∀ s, onEvent e s = .next (effect s))
    (k : Nat) (sys : System) : onSystemEvent k e sys = .next (sys.modify k effect) := by
  rw [List.modify_eq_set_getElem?]
  cases hk : sys[k]? <;> simp [onSystemEvent, hk, heffect]

/-- Modifications of a list at two different places commute. -/
theorem modify_modify_comm {α : Type} (l : List α) {j k : Nat} (hne : j ≠ k) (f g : α → α) :
    (l.modify j f).modify k g = (l.modify k g).modify j f := by
  apply List.ext_getElem?
  intro i
  simp only [List.getElem?_modify]
  by_cases hj : j = i
  · subst hj
    simp [hne.symm]
  · simp [hj]

/-- Settles O49: both events modify the list of blocks at their own index. -/
theorem blocksDoNotInteract : Obligations.BlocksDoNotInteract := by
  intro sys j k d e hne
  choose afterD hD using exists_onEvent_next d
  choose afterE hE using exists_onEvent_next e
  refine ⟨_, _, _, onSystemEvent_eq_modify hD j sys, onSystemEvent_eq_modify hE k sys, ?_, ?_,
    onSystemEvent_eq_modify hE k _, ?_⟩
  · simp [hne]
  · simp [hne.symm]
  · rw [onSystemEvent_eq_modify hD, modify_modify_comm sys hne]

end Sys2Proof.Machine
end
